-- ==== Sys2Proof/Word.lean ====
section
/-! DEFINITION. The word types of the machine: the 8-bit byte of registers and memory cells, and the 9-bit
program counter. -/

namespace Sys2Proof

/-- An unsigned 8-bit value: a register, a memory cell, an operand byte (spec/00_scope.md R6; `REG_WIDTH` and
`CELL_WIDTH` of R5). -/
abbrev Byte := BitVec 8

/-- The 9-bit program counter, `PC_WIDTH` of spec/00_scope.md R5: it can hold 256, one past the last cell
(spec/10_state.md R14). -/
abbrev Pc := BitVec 9

end Sys2Proof
end

