-- ==== Sys2Proof/Config.lean ====
section
/-! DEFINITION. The implementation parameters of spec/00_scope.md R5: the fixed numbers, and the one parameter that
the spec leaves to the machine instance, `UNKNOWN_OPCODE_POLICY`. -/

namespace Sys2Proof

/-- What a byte that is not in the opcode table does when it is fetched as an opcode
(spec/40_dispatch_loop.md R74): `fault` raises UnknownOpcode, `stall` changes nothing at all. -/
inductive UnknownOpcodePolicy where
  | fault
  | stall
  deriving DecidableEq, Repr

/-- What is fixed for one machine instance and is not state (spec/00_scope.md R8, point 2). -/
structure Config where
  unknownOpcodePolicy : UnknownOpcodePolicy
  deriving DecidableEq, Repr

/-- The spec's default, `UNKNOWN_OPCODE_POLICY` = `fault` (spec/00_scope.md R5). DESIGN CHOICE, unsafe:
notes/assumptions/2.md. -/
def Config.standard : Config := { unknownOpcodePolicy := .fault }

/-- `MEM_SIZE`: memory cells (spec/00_scope.md R5, spec/20_memory.md R30). -/
abbrev memSize : Nat := 256

/-- `NUM_REGS`: general registers (spec/00_scope.md R5). -/
abbrev numRegs : Nat := 8

/-- `SP_INDEX`: the register used as stack pointer (spec/10_state.md R12). -/
abbrev spIndex : Fin numRegs := 7

/-- `SP_RESET` (spec/10_state.md R12, R22). -/
abbrev spReset : Byte := 0xF4

/-- `GPR_RESET`, registers 0 to 6 (spec/10_state.md R22; the spec's decision D2). DESIGN CHOICE, unsafe:
notes/assumptions/1.md. -/
abbrev gprReset : Byte := 0x00

/-- `PC_RESET` (spec/10_state.md R22; the spec's decision D3). DESIGN CHOICE, unsafe: notes/assumptions/1.md. -/
abbrev pcReset : Pc := 0

end Sys2Proof
end

