-- ==== Sys2Proof/Machine/State.lean ====
section
/-! DEFINITION. The architectural state, the reset state, and the ways a step could stop without a next state. -/

namespace Sys2Proof.Machine

/-- The three flags of FL (spec/10_state.md R15): less, greater, equal. -/
structure Flags where
  L : Bool
  G : Bool
  E : Bool
  deriving DecidableEq, Repr

/-- The four faults (spec/60_exceptions.md R151). They are state, not outcomes of a step: notes/assumptions/3.md. -/
inductive FaultKind where
  /-- MOD whose divisor register holds 0 (R152) -/
  | divisionByZero
  /-- a byte that is no opcode, under policy `fault` (R153) -/
  | unknownOpcode
  /-- an access at address 256 or above (R154) -/
  | memoryBounds
  /-- a register operand byte of 8 or more (R155) -/
  | registerBounds
  deriving DecidableEq, Repr

/-- The record a fault leaves (spec/10_state.md R18): its kind, the address of the faulting instruction, the opcode
byte fetched (`none` when the fetch itself faulted), and the offending address, register operand byte, opcode byte or
divisor index. `info` is a number that only the host reads (notes/assumptions/7.md). -/
structure FaultRecord where
  kind   : FaultKind
  pc     : Pc
  opcode : Option Byte
  info   : Nat
  deriving DecidableEq, Repr

/-- Memory as (address, byte) pairs in canonical form: addresses strictly rising, no entry equal to what an unlisted
address reads as (notes/assumptions/17.md; the form is `Memory.wf` of Machine/Ops.lean). -/
abbrev Memory := List Host.Cell

/-- The complete architectural state (spec/10_state.md R10): nothing else is state (R21). -/
structure State where
  regs    : Vector Byte 8
  pc      : Pc
  flags   : Flags
  running : Bool
  fault   : Option FaultRecord
  out     : List Byte
  mem     : Memory
  deriving DecidableEq, Repr

/-- Reasons for a step to end without a next state. There is none: every fault of this machine is a latched record in
`State.fault`, and every step has a next state (spec/60_exceptions.md R157; notes/assumptions/3.md). -/
inductive Fault where
  deriving DecidableEq, Repr

/-- Reasons for the model to refuse an instruction. -/
inductive Refusal where
  /-- Raised by an arm of `exec` whose instruction has no meaning yet; no arm does, since all 19 have one. Safe. -/
  | notModelled (mnemonic : String)
  deriving DecidableEq, Repr

/-- What a step, and the meaning of an instruction, answers. -/
abbrev StepResult := Host.Outcome State Fault Refusal

/-- The registers after reset (spec/10_state.md R22): 0x00 each (D2, notes/assumptions/1.md), register 7 = 0xF4. -/
def resetRegs : Vector Byte 8 := (Vector.replicate 8 gprReset).set 7 spReset

/-- FL after reset: Unset (spec/10_state.md R22; D5, notes/assumptions/1.md). -/
def resetFlags : Flags := { L := false, G := false, E := false }

/-- The machine right after reset (spec/10_state.md R22, spec/70_reset_and_hazards.md R180): not running, memory all
0x00, which is no listed cell. -/
def State.reset : State :=
  { regs := resetRegs, pc := pcReset, flags := resetFlags, running := false, fault := none, out := [], mem := [] }

end Sys2Proof.Machine
end

