-- ==== Sys2Proof/Machine/Ops.lean ====
section
/-! DEFINITION. The named operations over memory, registers, the program counter, the output stream and the fault
latch, that every meaning is written with. -/

namespace Sys2Proof.Machine

/-! Memory -/

/-- What an address that memory does not list reads as: memory is "zero-initialized" (spec/10_state.md R22). -/
def unlistedByte : Byte := 0x00

/-- The byte at an address (spec/20_memory.md R34): the last value written, or what an unlisted address reads as. -/
def Memory.read : Memory → Nat → Byte
  | [], _ => unlistedByte
  | (k, v) :: rest, a => if k = a then v else Memory.read rest a

/-- Memory with no entry at an address. -/
def Memory.eraseCell : Memory → Nat → Memory
  | [], _ => []
  | (k, v) :: rest, a => if k = a then Memory.eraseCell rest a else (k, v) :: Memory.eraseCell rest a

/-- Memory with an entry added before the first greater address. -/
def Memory.insertCell : Memory → Nat → Byte → Memory
  | [], a, v => [(a, v)]
  | (k, w) :: rest, a, v => if a < k then (a, v) :: (k, w) :: rest else (k, w) :: Memory.insertCell rest a v

/-- Store a byte (`M[addr] <- v`, spec/00_scope.md R7), keeping the canonical form: storing what an unlisted address
reads as removes the entry. -/
def Memory.write (m : Memory) (a : Nat) (v : Byte) : Memory :=
  if v = unlistedByte then Memory.eraseCell m a else Memory.insertCell (Memory.eraseCell m a) a v

/-- The canonical form from address `lo` up: addresses rise strictly, lie in [0, 256), and no entry holds what an
unlisted address reads as. -/
def Memory.wfFrom : Nat → Memory → Bool
  | _, [] => true
  | lo, (k, v) :: rest => decide (lo ≤ k) && decide (k < memSize) && v != unlistedByte && Memory.wfFrom (k + 1) rest

/-- The canonical form of memory, under which equal memories are equal lists. -/
def Memory.wf (m : Memory) : Bool := Memory.wfFrom 0 m

/-- `MemRead(addr, 1)` (spec/00_scope.md R7, spec/20_memory.md R31): no byte exists at 256 or above, and the address is
never wrapped. The caller raises MemoryBounds on `none`. -/
def State.memRead? (s : State) (addr : Nat) : Option Byte :=
  if addr < memSize then some (s.mem.read addr) else none

/-- `MemRead` at an 8-bit address, which is always in range (spec/20_memory.md R31). -/
def State.loadByte (s : State) (addr : Byte) : Byte := s.mem.read addr.toNat

/-- `MemWrite` at an 8-bit address, which is always in range, so that it never raises (spec/20_memory.md R31). -/
def State.storeByte (s : State) (addr v : Byte) : State := { s with mem := s.mem.write addr.toNat v }

/-! Registers -/

/-- `x[r]`. -/
def State.reg (s : State) (r : Fin numRegs) : Byte := s.regs[r]

/-- `x[r] <- v`. Every register is an ordinary one, register 7 too (spec/10_state.md R11, R12). -/
def State.setReg (s : State) (r : Fin numRegs) (v : Byte) : State := { s with regs := s.regs.set r v }

/-- `SP`, an alias of `x[7]` (spec/10_state.md R12). -/
def State.sp (s : State) : Byte := s.reg spIndex

/-! Program counter -/

/-- `zext_9(v)`: an 8-bit target as a program counter value (spec/00_scope.md R6, spec/44_control_transfer.md R130). -/
def zext9 (v : Byte) : Pc := v.setWidth 9

/-- `pc <- t`. -/
def State.setPc (s : State) (t : Pc) : State := { s with pc := t }

/-- `pc <- pc0 + L`: the sequential policy, 9-bit, not reduced modulo 256 (spec/40_dispatch_loop.md R77; D4,
notes/assumptions/6.md). -/
def State.advance (s : State) (len : Pc) : State := s.setPc (s.pc + len)

/-- `pc <- zext_9(v)`: the target policy (spec/40_dispatch_loop.md R77). -/
def State.jump (s : State) (target : Byte) : State := s.setPc (zext9 target)

/-! The other elements -/

/-- Write all three flags. -/
def State.setFlags (s : State) (f : Flags) : State := { s with flags := f }

/-- `Emit(v)`: append a byte to the output stream, oldest first (spec/00_scope.md R7, spec/10_state.md R19). -/
def State.emit (s : State) (v : Byte) : State := { s with out := s.out ++ [v] }

/-- `running <- false` (spec/42_load_output_halt.md R112). -/
def State.halt (s : State) : State := { s with running := false }

/-- Write the fault latch. -/
def State.latchFault (s : State) (r : FaultRecord) : State := { s with fault := some r }

/-! Taking a fault. There is no return from one (spec/60_exceptions.md R158): only reset clears the latch. -/

/-- `raise K(info)` in a step with opcode `opcode` (`none` if it was not fetched): the record is latched and nothing
else changes, `running` included; control goes nowhere (spec/60_exceptions.md R157; D7, D8, D11, D12,
notes/assumptions/14.md). Every caller raises from the state at the start of the step, so that the recorded pc is
`pc0` and no partial effect is left. -/
def raise (kind : FaultKind) (opcode : Option Byte) (info : Nat) (s : State) : StepResult :=
  .next (s.latchFault { kind := kind, pc := s.pc, opcode := opcode, info := info })

/-- The host's code of a fault kind (spec/60_exceptions.md R151; D10). No instruction reads it. -/
def faultCode : FaultKind → Nat
  | .divisionByZero => 1
  | .unknownOpcode => 2
  | .memoryBounds => 3
  | .registerBounds => 4

/-! The stack (spec/43_stack.md R120): full descending through `x[7]`, arithmetic modulo 256 (D15,
notes/assumptions/11.md). -/

/-- Push one byte: decrement SP, then store at the new SP. The value is taken from the state AFTER the decrement
(spec/43_stack.md R121; D16, notes/assumptions/11.md). -/
def pushByte (value : State → Byte) (s : State) : State :=
  let s1 := s.setReg spIndex (s.sp - 1)
  s1.storeByte s1.sp (value s1)

/-- The byte at the top of the stack, `M[x[7]]`. -/
def State.topOfStack (s : State) : Byte := s.loadByte s.sp

/-- `x[7] <- (x[7] + 1) mod 256`, the second half of a pop; the popped cell keeps its value (spec/43_stack.md R122). -/
def State.dropTop (s : State) : State := s.setReg spIndex (s.sp + 1)

end Sys2Proof.Machine
end

