-- ==== Sys2Proof/Machine/Flags.lean ====
section
/-! DEFINITION. The flag computation of CMP, the test of the conditional jumps, and the packed view of FL. No other
instruction computes or reads a flag (spec/10_state.md R15). -/

namespace Sys2Proof.Machine

/-- `FL.L <- (a < b) ; FL.G <- (a > b) ; FL.E <- (a == b)`, unsigned (spec/41_alu.md R94). -/
def compareFlags (a b : Byte) : Flags :=
  { L := decide (a.toNat < b.toNat), G := decide (b.toNat < a.toNat), E := decide (a = b) }

/-- The only test any instruction makes of FL: bit E (spec/44_control_transfer.md R130). -/
def State.equalFlag (s : State) : Bool := s.flags.E

/-- FL as one byte, `0b00000LGE`, the upper five bits 0 (spec/10_state.md R15; D6, notes/assumptions/10.md). No
instruction can observe it. -/
def Flags.packed (f : Flags) : Byte :=
  (if f.L then 0b100#8 else 0#8) ||| (if f.G then 0b010#8 else 0#8) ||| (if f.E then 0b001#8 else 0#8)

/-- At most one of L, G, E is set (spec/10_state.md R16). -/
def Flags.atMostOne (f : Flags) : Bool := !(f.L && f.G) && !(f.L && f.E) && !(f.G && f.E)

/-- Exactly one of L, G, E is set, as after any comparison (spec/10_state.md R16). -/
def Flags.exactlyOne (f : Flags) : Bool := f.atMostOne && (f.L || f.G || f.E)

end Sys2Proof.Machine
end

