-- ==== Sys2Proof/Syntax.lean ====
section
/-! DEFINITION. The instructions: one constructor for each of the 19 rows of spec/opcode_table.json
(spec/30_encoding.md R55). -/

namespace Sys2Proof

/-- An instruction as its opcode and its operand bytes. `ra` and `rb` are the register operand BYTES as fetched, 0 to
255: a byte of 8 or more names no register, and the instruction's meaning then raises RegisterBounds with that byte
(spec/30_encoding.md R52, R54; notes/assumptions/9.md). `imm` is LDI's immediate, used as it stands (R53). -/
inductive Instr where
  /-- LDI ra, imm (R110) -/
  | ldi (ra imm : Byte)
  /-- PRN ra (R111) -/
  | prn (ra : Byte)
  /-- MUL ra, rb (R93) -/
  | mul (ra rb : Byte)
  /-- HLT (R112) -/
  | hlt
  /-- PUSH ra (R121) -/
  | push (ra : Byte)
  /-- POP ra (R122) -/
  | pop (ra : Byte)
  /-- RET (R135) -/
  | ret
  /-- CALL ra (R134) -/
  | call (ra : Byte)
  /-- CMP ra, rb (R94) -/
  | cmp (ra rb : Byte)
  /-- JEQ ra (R132) -/
  | jeq (ra : Byte)
  /-- JNE ra (R133) -/
  | jne (ra : Byte)
  /-- JMP ra (R131) -/
  | jmp (ra : Byte)
  /-- AND ra, rb (R95) -/
  | and (ra rb : Byte)
  /-- OR ra, rb (R96) -/
  | or (ra rb : Byte)
  /-- XOR ra, rb (R97) -/
  | xor (ra rb : Byte)
  /-- NOT ra (R98) -/
  | not (ra : Byte)
  /-- SHL ra, rb (R99) -/
  | shl (ra rb : Byte)
  /-- SHR ra, rb (R100) -/
  | shr (ra rb : Byte)
  /-- MOD ra, rb (R101) -/
  | mod (ra rb : Byte)
  deriving DecidableEq, Repr

end Sys2Proof
end

