-- ==== Sys2Proof/WellFormed.lean ====
section
/-! DEFINITION. When an instruction is well formed: each of its register operand bytes names a register
(spec/30_encoding.md R54). -/

namespace Sys2Proof

/-- The register operand bytes of an instruction, in the order in which the machine checks them: `ra`, then `rb`
(spec/30_encoding.md R50, R54). LDI's immediate is none. -/
def Instr.registerOperands : Instr → List Byte
  | .ldi ra _ => [ra]
  | .prn ra => [ra]
  | .mul ra rb => [ra, rb]
  | .hlt => []
  | .push ra => [ra]
  | .pop ra => [ra]
  | .ret => []
  | .call ra => [ra]
  | .cmp ra rb => [ra, rb]
  | .jeq ra => [ra]
  | .jne ra => [ra]
  | .jmp ra => [ra]
  | .and ra rb => [ra, rb]
  | .or ra rb => [ra, rb]
  | .xor ra rb => [ra, rb]
  | .not ra => [ra]
  | .shl ra rb => [ra, rb]
  | .shr ra rb => [ra, rb]
  | .mod ra rb => [ra, rb]

/-- "The legal values are 0 to 7" (spec/30_encoding.md R52). -/
def namesRegister (b : Byte) : Bool := b.toNat < numRegs

/-- Every register operand byte names a register. An ill-formed instruction still has a meaning: it raises
RegisterBounds (spec/30_encoding.md R54). -/
def WellFormed (i : Instr) : Bool := i.registerOperands.all namesRegister

end Sys2Proof
end

