-- ==== Sys2Proof/Decode.lean ====
section
/-! DEFINITION. The decoder and the encoder (spec/30_encoding.md). Decoding reads a list of bytes, the first at the
lowest address, and answers the instruction with the bytes after it, or why there is none. -/

namespace Sys2Proof

/-- How the bytes after an opcode build the instruction: the formats `Z`, `R`, and the two three-byte formats `RR` and
`RI` (spec/30_encoding.md R50). -/
inductive OpcodeFormat where
  | z (build : Instr)
  | r (build : Byte → Instr)
  | rr (build : Byte → Byte → Instr)
  | ri (build : Byte → Byte → Instr)

/-- The static opcode table, sorted by opcode value as in spec/30_encoding.md R55. The decoder compares the whole
byte (R51). -/
def opcodeTable : List (Byte × OpcodeFormat) :=
  [ (0b00000001, .z .hlt),
    (0b00010001, .z .ret),
    (0b01000101, .r .push),
    (0b01000110, .r .pop),
    (0b01000111, .r .prn),
    (0b01010000, .r .call),
    (0b01010100, .r .jmp),
    (0b01010101, .r .jeq),
    (0b01010110, .r .jne),
    (0b01101001, .r .not),
    (0b10000010, .ri .ldi),
    (0b10100010, .rr .mul),
    (0b10100100, .rr .mod),
    (0b10100111, .rr .cmp),
    (0b10101000, .rr .and),
    (0b10101010, .rr .or),
    (0b10101011, .rr .xor),
    (0b10101100, .rr .shl),
    (0b10101101, .rr .shr) ]

/-- Why bytes decode to no instruction. -/
inductive DecodeError where
  /-- there is no opcode byte -/
  | noOpcode
  /-- the byte is none of the 19 opcodes (spec/30_encoding.md R56) -/
  | unknownOpcode (opcode : Byte)
  /-- the opcode is known and its operand byte number `which` (1 or 2), the first that is missing, is not there
  (spec/40_dispatch_loop.md R75) -/
  | missingOperand (opcode : Byte) (which : Nat)
  deriving DecidableEq, Repr

/-- Operand fetch for a known opcode: the operand bytes are taken in order, and the first missing one is reported
(spec/40_dispatch_loop.md R75). -/
def decodeOperands (opcode : Byte) : OpcodeFormat → List Byte → Except DecodeError (Instr × List Byte)
  | .z build, bytes => .ok (build, bytes)
  | .r build, b1 :: bytes => .ok (build b1, bytes)
  | .rr build, b1 :: b2 :: bytes => .ok (build b1 b2, bytes)
  | .ri build, b1 :: b2 :: bytes => .ok (build b1 b2, bytes)
  | .r _, [] => .error (.missingOperand opcode 1)
  | .rr _, [] => .error (.missingOperand opcode 1)
  | .ri _, [] => .error (.missingOperand opcode 1)
  | .rr _, [_] => .error (.missingOperand opcode 2)
  | .ri _, [_] => .error (.missingOperand opcode 2)

/-- Decode the instruction at the head of `bytes`: look the opcode byte up, then take its operand bytes
(spec/30_encoding.md R51; spec/40_dispatch_loop.md R73 to R75). An unknown opcode has no operands (R56). -/
def decode : List Byte → Except DecodeError (Instr × List Byte)
  | [] => .error .noOpcode
  | opcode :: bytes =>
    match opcodeTable.lookup opcode with
    | none => .error (.unknownOpcode opcode)
    | some format => decodeOperands opcode format bytes

/-- The opcode byte of an instruction (spec/30_encoding.md R55). -/
def Instr.opcode : Instr → Byte
  | .hlt => 0x01
  | .ret => 0x11
  | .push _ => 0x45
  | .pop _ => 0x46
  | .prn _ => 0x47
  | .call _ => 0x50
  | .jmp _ => 0x54
  | .jeq _ => 0x55
  | .jne _ => 0x56
  | .not _ => 0x69
  | .ldi _ _ => 0x82
  | .mul _ _ => 0xA2
  | .mod _ _ => 0xA4
  | .cmp _ _ => 0xA7
  | .and _ _ => 0xA8
  | .or _ _ => 0xAA
  | .xor _ _ => 0xAB
  | .shl _ _ => 0xAC
  | .shr _ _ => 0xAD

/-- The operand bytes of an instruction: the first-listed operand at `pc0 + 1`, the second at `pc0 + 2`
(spec/20_memory.md R32; the spec's decision D24, notes/assumptions/15.md). -/
def Instr.operandBytes : Instr → List Byte
  | .hlt => []
  | .ret => []
  | .push ra => [ra]
  | .pop ra => [ra]
  | .prn ra => [ra]
  | .call ra => [ra]
  | .jmp ra => [ra]
  | .jeq ra => [ra]
  | .jne ra => [ra]
  | .not ra => [ra]
  | .ldi ra imm => [ra, imm]
  | .mul ra rb => [ra, rb]
  | .mod ra rb => [ra, rb]
  | .cmp ra rb => [ra, rb]
  | .and ra rb => [ra, rb]
  | .or ra rb => [ra, rb]
  | .xor ra rb => [ra, rb]
  | .shl ra rb => [ra, rb]
  | .shr ra rb => [ra, rb]

/-- The bytes of an instruction, lowest address first: the opcode, then the operands (spec/30_encoding.md R50). -/
def encode (i : Instr) : List Byte := i.opcode :: i.operandBytes

/-- The length L of an instruction, fixed by its opcode (spec/30_encoding.md R55, column length). -/
def Instr.length : Instr → Nat
  | .hlt => 1
  | .ret => 1
  | .push _ => 2
  | .pop _ => 2
  | .prn _ => 2
  | .call _ => 2
  | .jmp _ => 2
  | .jeq _ => 2
  | .jne _ => 2
  | .not _ => 2
  | .ldi _ _ => 3
  | .mul _ _ => 3
  | .mod _ _ => 3
  | .cmp _ _ => 3
  | .and _ _ => 3
  | .or _ _ => 3
  | .xor _ _ => 3
  | .shl _ _ => 3
  | .shr _ _ => 3

/-- The three bytes of a table word whose bit 0 is the least significant bit of the FIRST byte; every bit from `nbits`
up is 0. Three bytes are the longest instruction (spec/30_encoding.md R50). -/
def tableWordBytes (nbits w : Nat) : List Byte :=
  let bits := w % 2 ^ nbits
  [BitVec.ofNat 8 bits, BitVec.ofNat 8 (bits / 2 ^ 8), BitVec.ofNat 8 (bits / 2 ^ 16)]

/-- The instruction the decoder reads from a word numbered as spec/opcode_table.json numbers it. -/
def decodeTableWord (nbits w : Nat) : Option Instr :=
  match decode (tableWordBytes nbits w) with
  | .ok (i, _) => some i
  | .error _ => none

end Sys2Proof
end

