-- ==== Sys2Proof/Machine/Operands.lean ====
section
/-! DEFINITION. The operand forms: how a meaning gets its registers from register operand bytes
(spec/30_encoding.md R50, R52, R54). An immediate is the operand byte as it stands (R53) and a format `Z` instruction
has no operand, so neither needs an operation here. -/

namespace Sys2Proof.Machine

/-- The register an operand byte names, if it is 0 to 7; the byte is not masked to three bits
(spec/30_encoding.md R54). -/
def registerOperand (b : Byte) : Option (Fin numRegs) :=
  if h : b.toNat < numRegs then some ⟨b.toNat, h⟩ else none

/-- Formats `R` and `RI`: check `ra`, and raise RegisterBounds with the offending byte before the instruction does
anything (spec/60_exceptions.md R155). -/
def withRegister (opcode ra : Byte) (s : State) (body : Fin numRegs → StepResult) : StepResult :=
  match registerOperand ra with
  | some a => body a
  | none => raise .registerBounds (some opcode) ra.toNat s

/-- Format `RR`: check `ra`, then `rb` (spec/60_exceptions.md R156). -/
def withRegisters (opcode ra rb : Byte) (s : State) (body : Fin numRegs → Fin numRegs → StepResult) : StepResult :=
  withRegister opcode ra s fun a => withRegister opcode rb s fun b => body a b

end Sys2Proof.Machine
end

