-- ==== Sys2Proof/Machine/Alu.lean ====
section
/-! DEFINITION. The ALU (spec/41_alu.md R90 to R102) and the nine instructions that use it: MUL, CMP, AND, OR, XOR, NOT,
SHL, SHR, MOD. -/

namespace Sys2Proof.Machine

/-- The symbolic operation names of the ALU (spec/41_alu.md R90). No opcode reaches `add` (R92; D19,
notes/assumptions/20.md). -/
inductive AluOp where
  | add | mul | cmp | and | or | xor | not | shl | shr | mod
  deriving DecidableEq, Repr

/-- What the ALU answers (spec/41_alu.md R90): a result or none, flags or none, and whether a divisor was 0. -/
structure AluOutput where
  result  : Option Byte
  flags   : Option Flags
  divzero : Bool
  deriving DecidableEq, Repr

/-- An ALU answer that is a value alone. -/
def aluValue (v : Byte) : AluOutput := { result := some v, flags := none, divzero := false }

/-- Logical shift left by the whole 8-bit count: zeros enter at bit 0, and a count of 8 or more gives 0
(spec/41_alu.md R99; D18, notes/assumptions/13.md). -/
def shiftLeft (a n : Byte) : Byte := a <<< n.toNat

/-- Logical shift right by the whole 8-bit count: zeros enter at bit 7, and a count of 8 or more gives 0
(spec/41_alu.md R100; D18, notes/assumptions/13.md). -/
def shiftRight (a n : Byte) : Byte := a >>> n.toNat

/-- The ALU: a function of its two operand VALUES with no state of its own (spec/41_alu.md R90, R102). All values are
unsigned and every result is 8 bits. NOT uses `a` only. -/
def alu (op : AluOp) (a b : Byte) : AluOutput :=
  match op with
  | .add => aluValue (a + b)
  | .mul => aluValue (a * b)
  | .cmp => { result := none, flags := some (compareFlags a b), divzero := false }
  | .and => aluValue (a &&& b)
  | .or => aluValue (a ||| b)
  | .xor => aluValue (a ^^^ b)
  | .not => aluValue (~~~a)
  | .shl => aluValue (shiftLeft a b)
  | .shr => aluValue (shiftRight a b)
  | .mod => if b = 0 then { result := none, flags := none, divzero := true } else aluValue (a % b)

/-- Write an ALU result, if there is one, to the destination register. -/
def State.writeResult (s : State) (r : Fin numRegs) : Option Byte → State
  | some v => s.setReg r v
  | none => s

/-- Write the ALU's flags, if there are any. -/
def State.writeFlags (s : State) : Option Flags → State
  | some f => s.setFlags f
  | none => s

/-- The data path of every ALU instruction (spec/41_alu.md R90, R91): both registers are read, a zero divisor raises
DivisionByZero with the divisor register's index before any write (R101), else the result goes to `x[ra]` and the
flags to FL, and pc moves past the instruction. -/
def aluStep (op : AluOp) (opcode : Byte) (a b : Fin numRegs) (len : Pc) (s : State) : StepResult :=
  let o := alu op (s.reg a) (s.reg b)
  if o.divzero then raise .divisionByZero (some opcode) b.val s
  else .next (((s.writeResult a o.result).writeFlags o.flags).advance len)

/-- A three-byte ALU instruction of format `RR`. -/
def aluBinary (op : AluOp) (opcode ra rb : Byte) (s : State) : StepResult :=
  withRegisters opcode ra rb s fun a b => aluStep op opcode a b 3 s

/-- The two-byte ALU instruction of format `R`, NOT: the second operand is the same register again
(spec/41_alu.md R98). -/
def aluUnary (op : AluOp) (opcode ra : Byte) (s : State) : StepResult :=
  withRegister opcode ra s fun a => aluStep op opcode a a 2 s

/-- MUL ra, rb (spec/41_alu.md R93). -/
def execMul (ra rb : Byte) (s : State) : StepResult := aluBinary .mul (Instr.mul ra rb).opcode ra rb s

/-- CMP ra, rb (spec/41_alu.md R94). -/
def execCmp (ra rb : Byte) (s : State) : StepResult := aluBinary .cmp (Instr.cmp ra rb).opcode ra rb s

/-- AND ra, rb (spec/41_alu.md R95). -/
def execAnd (ra rb : Byte) (s : State) : StepResult := aluBinary .and (Instr.and ra rb).opcode ra rb s

/-- OR ra, rb (spec/41_alu.md R96). -/
def execOr (ra rb : Byte) (s : State) : StepResult := aluBinary .or (Instr.or ra rb).opcode ra rb s

/-- XOR ra, rb (spec/41_alu.md R97). -/
def execXor (ra rb : Byte) (s : State) : StepResult := aluBinary .xor (Instr.xor ra rb).opcode ra rb s

/-- NOT ra (spec/41_alu.md R98). -/
def execNot (ra : Byte) (s : State) : StepResult := aluUnary .not (Instr.not ra).opcode ra s

/-- SHL ra, rb (spec/41_alu.md R99): left, as the mnemonic says (spec/90_conflicts.md C1). -/
def execShl (ra rb : Byte) (s : State) : StepResult := aluBinary .shl (Instr.shl ra rb).opcode ra rb s

/-- SHR ra, rb (spec/41_alu.md R100): right, as the mnemonic says (spec/90_conflicts.md C1). -/
def execShr (ra rb : Byte) (s : State) : StepResult := aluBinary .shr (Instr.shr ra rb).opcode ra rb s

/-- MOD ra, rb (spec/41_alu.md R101). -/
def execMod (ra rb : Byte) (s : State) : StepResult := aluBinary .mod (Instr.mod ra rb).opcode ra rb s

end Sys2Proof.Machine
end

