-- ==== Sys2Proof/Machine/ControlTransfer.lean ====
section
/-! DEFINITION. JMP, JEQ, JNE, CALL and RET (spec/44_control_transfer.md). -/

namespace Sys2Proof.Machine

/-- A conditional jump: to `x[a]` if `taken`, else past its two bytes (spec/40_dispatch_loop.md R77). -/
def jumpIf (taken : Bool) (a : Fin numRegs) (s : State) : StepResult :=
  .next (if taken then s.jump (s.reg a) else s.advance 2)

/-- JMP ra (spec/44_control_transfer.md R131). -/
def execJmp (ra : Byte) (s : State) : StepResult :=
  withRegister (Instr.jmp ra).opcode ra s fun a => .next (s.jump (s.reg a))

/-- JEQ ra (spec/44_control_transfer.md R132): the register operand is checked also when the jump is not taken. -/
def execJeq (ra : Byte) (s : State) : StepResult :=
  withRegister (Instr.jeq ra).opcode ra s fun a => jumpIf s.equalFlag a s

/-- JNE ra (spec/44_control_transfer.md R133). -/
def execJne (ra : Byte) (s : State) : StepResult :=
  withRegister (Instr.jne ra).opcode ra s fun a => jumpIf (!s.equalFlag) a s

/-- The address a CALL at `pc` returns to, exact (spec/44_control_transfer.md R134). -/
def returnAddress (s : State) : Nat := s.pc.toNat + 2

/-- CALL ra (spec/44_control_transfer.md R134): a return address that is no cell raises MemoryBounds before anything is
written (D17, notes/assumptions/12.md); else it is pushed, and `x[ra]` is read after the push (D16). -/
def execCall (ra : Byte) (s : State) : StepResult :=
  withRegister (Instr.call ra).opcode ra s fun a =>
    if memSize ≤ returnAddress s then raise .memoryBounds (some (Instr.call ra).opcode) (returnAddress s) s
    else
      let s1 := pushByte (fun _ => BitVec.ofNat 8 (returnAddress s)) s
      .next (s1.jump (s1.reg a))

/-- RET (spec/44_control_transfer.md R135): the popped byte goes to pc; memory is not written. -/
def execRet (s : State) : StepResult := .next (s.dropTop.jump s.topOfStack)

end Sys2Proof.Machine
end

