-- ==== Sys2Proof/Machine/LoadOutputHalt.lean ====
section
/-! DEFINITION. LDI, PRN and HLT (spec/42_load_output_halt.md). -/

namespace Sys2Proof.Machine

/-- LDI ra, imm (spec/42_load_output_halt.md R110): only `ra` is checked, `imm` may be any byte. -/
def execLdi (ra imm : Byte) (s : State) : StepResult :=
  withRegister (Instr.ldi ra imm).opcode ra s fun a => .next ((s.setReg a imm).advance 3)

/-- PRN ra (spec/42_load_output_halt.md R111). -/
def execPrn (ra : Byte) (s : State) : StepResult :=
  withRegister (Instr.prn ra).opcode ra s fun a => .next ((s.emit (s.reg a)).advance 2)

/-- HLT (spec/42_load_output_halt.md R112): pc is not written. -/
def execHlt (s : State) : StepResult := .next s.halt

end Sys2Proof.Machine
end

