-- ==== Sys2Proof/Machine/Stack.lean ====
section
/-! DEFINITION. PUSH and POP (spec/43_stack.md). -/

namespace Sys2Proof.Machine

/-- PUSH ra (spec/43_stack.md R121): `x[ra]` is read after SP is decremented, so PUSH R7 stores the new SP (D16). -/
def execPush (ra : Byte) (s : State) : StepResult :=
  withRegister (Instr.push ra).opcode ra s fun a => .next ((pushByte (fun s1 => s1.reg a) s).advance 2)

/-- POP ra (spec/43_stack.md R122): the register is loaded first and SP is read again after that, so POP R7 leaves the
loaded value plus 1 (D16). -/
def execPop (ra : Byte) (s : State) : StepResult :=
  withRegister (Instr.pop ra).opcode ra s fun a => .next ((s.setReg a s.topOfStack).dropTop.advance 2)

end Sys2Proof.Machine
end

