-- ==== Sys2Proof/Machine/Dispatch.lean ====
section
/-! DEFINITION. The instruction dispatcher: each instruction to its meaning (spec/40_dispatch_loop.md R73, R81). -/

namespace Sys2Proof.Machine

/-- The effect of one decoded instruction, from the state at the start of its step (`Exec_<mnemonic>` of
spec/40_dispatch_loop.md R76, with the register-index checks before it). -/
def exec (i : Instr) (s : State) : Host.Outcome State Fault Refusal :=
  match i with
  | .ldi ra imm => Sys2Proof.Machine.execLdi ra imm s
  | .prn ra => Sys2Proof.Machine.execPrn ra s
  | .mul ra rb => Sys2Proof.Machine.execMul ra rb s
  | .hlt => Sys2Proof.Machine.execHlt s
  | .push ra => Sys2Proof.Machine.execPush ra s
  | .pop ra => Sys2Proof.Machine.execPop ra s
  | .ret => Sys2Proof.Machine.execRet s
  | .call ra => Sys2Proof.Machine.execCall ra s
  | .cmp ra rb => Sys2Proof.Machine.execCmp ra rb s
  | .jeq ra => Sys2Proof.Machine.execJeq ra s
  | .jne ra => Sys2Proof.Machine.execJne ra s
  | .jmp ra => Sys2Proof.Machine.execJmp ra s
  | .and ra rb => Sys2Proof.Machine.execAnd ra rb s
  | .or ra rb => Sys2Proof.Machine.execOr ra rb s
  | .xor ra rb => Sys2Proof.Machine.execXor ra rb s
  | .not ra => Sys2Proof.Machine.execNot ra s
  | .shl ra rb => Sys2Proof.Machine.execShl ra rb s
  | .shr ra rb => Sys2Proof.Machine.execShr ra rb s
  | .mod ra rb => Sys2Proof.Machine.execMod ra rb s

end Sys2Proof.Machine
end

