-- ==== Sys2Proof/Machine/Fetch.lean ====
section
/-! DEFINITION. The loop guard, the fetch and decode phases of a step, and what a step does where they give no
instruction (spec/40_dispatch_loop.md R71 to R75). -/

namespace Sys2Proof.Machine

/-- The parameters of this machine: the spec's default policy (notes/assumptions/2.md). -/
def config : Config := Config.standard

/-- The loop guard: `running` = true and `fault` = `none` (spec/40_dispatch_loop.md R71). -/
def State.active (s : State) : Bool := s.running && s.fault.isNone

/-- What happens where the guard is false: the machine takes no step and no state element changes
(spec/40_dispatch_loop.md R71; DEDUCED, safe, notes/assumptions/4.md). -/
def idle (s : State) : StepResult := .next s

/-- The bytes of memory from `pc` up, at most three, less those that lie outside memory: what the fetch and
operand-fetch phases can read (spec/40_dispatch_loop.md R72, R75; notes/assumptions/8.md). -/
def State.fetchWindow (s : State) : List Byte :=
  [s.pc.toNat, s.pc.toNat + 1, s.pc.toNat + 2].filterMap s.memRead?

/-- Fetch and decode the instruction at `pc`. -/
def State.fetchDecode (s : State) : Except DecodeError Instr :=
  match decode s.fetchWindow with
  | .ok (i, _) => .ok i
  | .error e => .error e

/-- Fetch of a byte that is no opcode: under `fault` it raises UnknownOpcode, under `stall` the step changes nothing
(spec/40_dispatch_loop.md R74). `pc` is not advanced under either. -/
def unknownOpcode (c : Config) (opcode : Byte) (s : State) : StepResult :=
  match c.unknownOpcodePolicy with
  | .fault => raise .unknownOpcode (some opcode) opcode.toNat s
  | .stall => .next s

/-- A step whose fetch or decode phase gives no instruction: no opcode byte (spec/40_dispatch_loop.md R72), an unknown
opcode (R74), or a missing operand byte (R75). -/
def noInstruction (c : Config) (e : DecodeError) (s : State) : StepResult :=
  match e with
  | .noOpcode => raise .memoryBounds none s.pc.toNat s
  | .unknownOpcode opcode => unknownOpcode c opcode s
  | .missingOperand opcode which => raise .memoryBounds (some opcode) (s.pc.toNat + which) s

end Sys2Proof.Machine
end

