-- ==== Sys2Proof/Machine/Launch.lean ====
section
/-! DEFINITION. The host interface: load, start and observe (spec/70_reset_and_hazards.md R180 to R182,
spec/92_eei_decisions.md D25). Reset is `State.reset`. -/

namespace Sys2Proof.Machine

/-- The cells below `n` of an image, as memory in canonical form. -/
def imageCells (image : Byte → Byte) : Nat → Memory
  | 0 => []
  | n + 1 => Memory.write (imageCells image n) n (image (BitVec.ofNat 8 n))

/-- Load: set all 256 cells to an image and nothing else (spec/70_reset_and_hazards.md R181, spec/20_memory.md R43;
notes/assumptions/18.md). -/
def State.load (image : Byte → Byte) (s : State) : State := { s with mem := imageCells image memSize }

/-- The image of a program file's bytes, stored from address 0 in file order, the other cells 0x00; a file of more than
256 bytes has no image (spec/20_memory.md R43; D27, notes/assumptions/18.md). -/
def imageOfBytes (program : List Byte) : Option (Byte → Byte) :=
  if program.length ≤ memSize then some fun a => program.getD a.toNat 0x00 else none

/-- Start: `running <- true` and nothing else (spec/70_reset_and_hazards.md R182). -/
def State.start (s : State) : State := { s with running := true }

/-- The launch state of a run (spec/70_reset_and_hazards.md R182): reset, load, start. -/
def State.launch (image : Byte → Byte) : State := (State.reset.load image).start

/-- What the host sees of a launched run (spec/40_dispatch_loop.md R80, spec/60_exceptions.md R162, R164). -/
inductive RunStatus where
  | halted
  | faulted (r : FaultRecord)
  | notFinished
  deriving DecidableEq, Repr

/-- The outcome of a run, told from `running` and `fault` alone, "after a launch" (spec/60_exceptions.md R162): a machine
that was reset and not started yet shows the same two values as a halted one. -/
def State.status (s : State) : RunStatus :=
  match s.fault with
  | some r => .faulted r
  | none => if s.running then .notFinished else .halted

/-- The decimal text the host prints for each output byte, without leading zeros (spec/10_state.md R19); what stands
between two of them is not in the source (D21, notes/assumptions/16.md). -/
def State.rendered (s : State) : List (List Char) := s.out.map fun v => Nat.toDigits 10 v.toNat

/-- Place the bytes of one instruction at `pc`, moved to address 0 where three bytes do not fit below 256
(notes/assumptions/5.md). -/
def State.placeBytes (s : State) (bytes : List Byte) : State :=
  let at0 : Pc := if s.pc.toNat + 3 ≤ memSize then s.pc else 0
  { s with pc := at0, mem := writeBytes s.mem at0.toNat bytes }
where
  /-- Store bytes at rising addresses. -/
  writeBytes (m : Memory) (a : Nat) : List Byte → Memory
    | [] => m
    | v :: rest => writeBytes (Memory.write m a v) (a + 1) rest

/-- The state with its loop guard true: `running` set, no fault latched. -/
def State.activate (s : State) : State := { s with running := true, fault := none }

end Sys2Proof.Machine
end

