-- ==== Sys2Proof/Machine/Step.lean ====
section
/-! DEFINITION. The step function (spec/40_dispatch_loop.md R76). -/

namespace Sys2Proof.Machine

/-- One pass of the loop on a machine with parameters `c` (spec/40_dispatch_loop.md R70, R76): guard, fetch and decode,
then the instruction, which assigns pc itself. -/
def stepWith (c : Config) (s : State) : StepResult :=
  if s.active then
    match s.fetchDecode with
    | .ok i => exec i s
    | .error e => noInstruction c e s
  else idle s

/-- One pass of the loop on this machine. -/
def step (s : State) : Host.Outcome State Fault Refusal := stepWith config s

/-- The state with an instruction word, numbered as spec/opcode_table.json numbers it, placed where `step` fetches, and
the machine started, so that the very next step runs it (notes/assumptions/5.md). -/
def State.withFetchWord (s : State) (nbits w : Nat) : State := (s.placeBytes (tableWordBytes nbits w)).activate

end Sys2Proof.Machine
end

