-- ==== Sys2Proof/Safety.lean ====
section
/-! DEFINITION. What claims are stated in: the frame predicates, the invariant of the machine, and a normal end. -/

namespace Sys2Proof.Machine

/-- The operand byte that names register `r` (spec/30_encoding.md R52). Every operand byte below 8 is one of these. -/
def regByte (r : Fin numRegs) : Byte := BitVec.ofNat 8 r.val

/-- The byte values of spec/30_encoding.md R56 that are no opcode, as the rule lists them: ranges from first to last. -/
def unknownOpcodeRanges : List (Nat × Nat) :=
  [(0x00, 0x00), (0x02, 0x10), (0x12, 0x44), (0x48, 0x4F), (0x51, 0x53), (0x57, 0x68), (0x6A, 0x81), (0x83, 0xA1),
    (0xA3, 0xA3), (0xA5, 0xA5), (0xA6, 0xA6), (0xA9, 0xA9), (0xAE, 0xFF)]

/-! Frames -/

/-- Every register is the same but, possibly, those listed. -/
def SameRegsExcept (written : List (Fin numRegs)) (s t : State) : Prop := ∀ r, r ∉ written → t.reg r = s.reg r

/-- Every byte of memory reads the same but, possibly, the one at address `stored`. -/
def SameMemoryExcept (stored : Byte) (s t : State) : Prop := ∀ a, a ≠ stored.toNat → t.mem.read a = s.mem.read a

/-- Every byte of memory reads the same, and memory is the same list of cells. -/
def SameMemory (s t : State) : Prop := (∀ a, t.mem.read a = s.mem.read a) ∧ t.mem = s.mem

/-- The loop's own elements are the same: neither halted nor faulted. -/
def SameControl (s t : State) : Prop := t.running = s.running ∧ t.fault = s.fault

/-- The whole state is the same but for the fault latch, which holds `r`: a precise fault
(spec/60_exceptions.md R157). -/
def FaultsWith (r : FaultRecord) (s t : State) : Prop := t = { s with fault := some r }

/-- The instruction completes, writes the value `v` to register `a`, moves pc on by `len`, and changes nothing else: no
other register, no flag, no byte of memory, no output, and it neither halts nor faults. -/
def WritesRegisterOnly (i : Instr) (s : State) (a : Fin numRegs) (v : Nat) (len : Pc) : Prop :=
  ∃ t, exec i s = .next t ∧ (t.reg a).toNat = v ∧ t.pc = s.pc + len ∧ SameRegsExcept [a] s t ∧
    t.flags = s.flags ∧ t.out = s.out ∧ SameMemory s t ∧ SameControl s t

/-- The instruction completes, leaves pc at the address `target`, and changes nothing else. -/
def JumpsOnly (i : Instr) (s : State) (target : Nat) : Prop :=
  ∃ t, exec i s = .next t ∧ t.pc.toNat = target ∧ SameRegsExcept [] s t ∧
    t.flags = s.flags ∧ t.out = s.out ∧ SameMemory s t ∧ SameControl s t

/-- The instruction raises RegisterBounds for the operand byte `b`, and changes nothing else
(spec/60_exceptions.md R155). -/
def RaisesRegisterBounds (i : Instr) (s : State) (b : Byte) : Prop :=
  ∃ t, exec i s = .next t ∧ FaultsWith ⟨.registerBounds, s.pc, some i.opcode, b.toNat⟩ s t

/-! The invariant -/

/-- What a fault record can hold, by its kind (spec/60_exceptions.md R152 to R155): the opcode field and `info`. -/
def FaultRecord.wf (r : FaultRecord) : Bool :=
  match r.kind with
  | .divisionByZero => r.opcode == some 0xA4 && decide (r.info < numRegs)
  | .unknownOpcode =>
    match r.opcode with
    | some op => (opcodeTable.lookup op).isNone && decide (r.info = op.toNat)
    | none => false
  | .memoryBounds => decide (r.info = memSize) && (r.opcode.isNone == decide (r.pc.toNat = memSize))
  | .registerBounds =>
    match r.opcode with
    | some op => (opcodeTable.lookup op).isSome && decide (numRegs ≤ r.info) && decide (r.info < 256)
    | none => false

/-- A latched fault is a possible one, names the address `pc` still holds, and leaves `running` true
(spec/60_exceptions.md R157). -/
def State.faultWf (s : State) : Bool :=
  match s.fault with
  | none => true
  | some r => r.wf && decide (r.pc = s.pc) && s.running

/-- The invariant: memory is in canonical form, pc is 0 to 256 (spec/10_state.md R14), at most one flag is set (R16),
and a latched fault is a possible one. -/
abbrev State.Inv (s : State) : Prop :=
  s.mem.wf = true ∧ s.pc.toNat ≤ memSize ∧ s.flags.atMostOne = true ∧ s.faultWf = true

/-- A normal end: halted, with no fault (spec/40_dispatch_loop.md R80). A faulted state is none
(spec/60_exceptions.md R158). -/
abbrev State.NormalEnd (s : State) : Prop := s.running = false ∧ s.fault = none

/-- A run on a machine with parameters `c`: `n` passes of the loop (spec/40_dispatch_loop.md R70). The ceiling `n` is
the host's (R79; notes/assumptions/19.md). -/
def runWith (c : Config) : Nat → State → StepResult
  | 0, s => .next s
  | n + 1, s =>
    match stepWith c s with
    | .next t => runWith c n t
    | .fault r => .fault r
    | .refused r => .refused r

end Sys2Proof.Machine
end

