-- ==== Sys2Proof/Certificates/Slice0/Obligations.lean ====
section
/-! DEFINITION. The statements about the machine that the provers are asked for. -/

section

open Sys2Proof Sys2Proof.Machine

/-! Encoding -/

/-- R55: each of the 19 opcode values, as the spec prints it, selects its instruction, whose operands are the one or two
bytes after it, and no byte beyond them is taken. -/
def Obligations.OpcodeTableSelectsInstruction : Prop :=
  ∀ (a b : Byte) (rest : List Byte),
    decode (0b00000001 :: rest) = .ok (.hlt, rest) ∧
    decode (0b00010001 :: rest) = .ok (.ret, rest) ∧
    decode (0b01000101 :: a :: rest) = .ok (.push a, rest) ∧
    decode (0b01000110 :: a :: rest) = .ok (.pop a, rest) ∧
    decode (0b01000111 :: a :: rest) = .ok (.prn a, rest) ∧
    decode (0b01010000 :: a :: rest) = .ok (.call a, rest) ∧
    decode (0b01010100 :: a :: rest) = .ok (.jmp a, rest) ∧
    decode (0b01010101 :: a :: rest) = .ok (.jeq a, rest) ∧
    decode (0b01010110 :: a :: rest) = .ok (.jne a, rest) ∧
    decode (0b01101001 :: a :: rest) = .ok (.not a, rest) ∧
    decode (0b10000010 :: a :: b :: rest) = .ok (.ldi a b, rest) ∧
    decode (0b10100010 :: a :: b :: rest) = .ok (.mul a b, rest) ∧
    decode (0b10100100 :: a :: b :: rest) = .ok (.mod a b, rest) ∧
    decode (0b10100111 :: a :: b :: rest) = .ok (.cmp a b, rest) ∧
    decode (0b10101000 :: a :: b :: rest) = .ok (.and a b, rest) ∧
    decode (0b10101010 :: a :: b :: rest) = .ok (.or a b, rest) ∧
    decode (0b10101011 :: a :: b :: rest) = .ok (.xor a b, rest) ∧
    decode (0b10101100 :: a :: b :: rest) = .ok (.shl a b, rest) ∧
    decode (0b10101101 :: a :: b :: rest) = .ok (.shr a b, rest)

/-- Bytes decode to an instruction exactly where they begin with its encoding: for every instruction and every value of
its operand bytes, and in both directions. -/
def Obligations.DecodeAgreesWithEncode : Prop :=
  ∀ (bytes rest : List Byte) (i : Instr), decode bytes = .ok (i, rest) ↔ bytes = encode i ++ rest

/-- R56: a byte is an unknown opcode, whatever follows it, exactly where it lies in one of the ranges the rule lists,
which hold 237 values. 0x00 and 0xA0 are among them (0xA0: the spec's decision D19, notes/assumptions/20.md). -/
def Obligations.UnknownOpcodesAreTheListedRanges : Prop :=
  (∀ (op : Byte) (rest : List Byte),
    decode (op :: rest) = .error (.unknownOpcode op) ↔
      ∃ p ∈ unknownOpcodeRanges, p.1 ≤ op.toNat ∧ op.toNat ≤ p.2) ∧
  (unknownOpcodeRanges.map fun p => p.2 + 1 - p.1).sum = 237

/-- R57, an observation the spec derives from the table: bits 7 and 6 of an opcode are the number of operand bytes, bit
5 is set for the instructions that use the ALU, bit 4 for those that assign pc a target. The decoder does not go by
these bits: 0x40 has an operand count of 1 and is an unknown opcode. -/
def Obligations.OpcodeBitsFollowTheObservedPattern : Prop :=
  (∀ i : Instr,
    (i.opcode >>> 6).toNat = i.operandBytes.length ∧
    (i.opcode.getLsbD 5 = true ↔ i.opcode ∈ [0xA2, 0xA4, 0xA7, 0xA8, 0xAA, 0xAB, 0x69, 0xAC, 0xAD]) ∧
    (i.opcode.getLsbD 4 = true ↔ i.opcode ∈ [0x11, 0x50, 0x54, 0x55, 0x56])) ∧
  ∀ rest, decode (0x40 :: rest) = .error (.unknownOpcode 0x40)

/-- A word of the opcode table placed for the next fetch is the instruction the next step runs. The placing is the
model's own way for a program to come in (notes/assumptions/5.md). -/
def Obligations.PlacedWordIsTheNextInstruction : Prop :=
  ∀ (s : State) (nbits w : Nat) (i : Instr), decodeTableWord nbits w = some i →
    step (s.withFetchWord nbits w) = exec i (s.withFetchWord nbits w)

/-! Reset, load, start -/

/-- The reset values of R22. Register 7 and memory are the source's; registers 0 to 6, pc, FL, the latch and the output
are the spec's own decisions (D2, D3, D5, D7, D21; notes/assumptions/1.md). -/
def Obligations.ResetGivesTheListedValues : Prop :=
  (∀ r : Fin numRegs, State.reset.reg r = if r = 7 then 0xF4 else 0x00) ∧
  State.reset.pc = 0 ∧ State.reset.flags = { L := false, G := false, E := false } ∧ State.reset.flags.packed = 0x00 ∧
  State.reset.running = false ∧ State.reset.fault = none ∧ State.reset.out = [] ∧
  ∀ a, State.reset.mem.read a = 0x00

/-- R181, R182: load sets every cell to the image's byte and nothing else, start sets `running` and nothing else, and
the launch state is reset, load, start, for every image. The reset values in it are the spec's decisions where
notes/assumptions/1.md says so. -/
def Obligations.LaunchLoadsTheImageAndStarts : Prop :=
  (∀ (image : Byte → Byte) (s : State),
    (∀ a : Byte, (s.load image).mem.read a.toNat = image a) ∧ (s.load image) = { s with mem := (s.load image).mem } ∧
    s.start = { s with running := true }) ∧
  ∀ image : Byte → Byte,
    (∀ r : Fin numRegs, (State.launch image).reg r = if r = 7 then 0xF4 else 0x00) ∧ (State.launch image).pc = 0 ∧
    (State.launch image).flags = { L := false, G := false, E := false } ∧ (State.launch image).running = true ∧
    (State.launch image).fault = none ∧ (State.launch image).out = [] ∧
    ∀ a : Byte, (State.launch image).mem.read a.toNat = image a

/-- R43: the image of a file of at most 256 bytes holds them from address 0 in file order, the other cells 0x00; a file
of more than 256 bytes has no image (the spec's decision D27, notes/assumptions/18.md). -/
def Obligations.ImageBytesStartAtAddressZero : Prop :=
  ∀ bytes : List Byte,
    (bytes.length ≤ 256 → ∃ image, imageOfBytes bytes = some image ∧
      ∀ a : Byte, (State.launch image).mem.read a.toNat = (bytes[a.toNat]?).getD 0x00) ∧
    (256 < bytes.length → imageOfBytes bytes = none)

/-! The loop -/

/-- R71: where `running` is false or a fault is latched, no state element changes, in one pass of the loop or in any
number. That the model's step answers the same state there is its reading of "takes no step"
(notes/assumptions/4.md). -/
def Obligations.StoppedMachineKeepsItsState : Prop :=
  ∀ (c : Config) (s : State), (s.running = false ∨ s.fault ≠ none) →
    stepWith c s = .next s ∧ ∀ n, runWith c n s = .next s

/-- A step runs the instruction whose encoding stands at pc, and adds nothing to it: the instruction's meaning assigns pc
itself. For every instruction, well formed or not. -/
def Obligations.StepRunsTheInstructionAtPc : Prop :=
  ∀ (c : Config) (s : State) (i : Instr), s.running = true → s.fault = none →
    s.pc.toNat + (encode i).length ≤ 256 →
    (∀ k (hk : k < (encode i).length), s.mem.read (s.pc.toNat + k) = (encode i)[k]) →
    stepWith c s = exec i s ∧ step s = exec i s

/-- R72: a fetch at 256 or above raises MemoryBounds with no opcode recorded; below 256 the opcode is the byte at pc. -/
def Obligations.FetchBeyondMemoryFaults : Prop :=
  ∀ (c : Config) (s : State), s.running = true → s.fault = none →
    (256 ≤ s.pc.toNat → ∃ t, stepWith c s = .next t ∧
      FaultsWith ⟨.memoryBounds, s.pc, none, s.pc.toNat⟩ s t) ∧
    (s.pc.toNat < 256 → s.fetchWindow.head? = some (s.mem.read s.pc.toNat))

/-- R74: an unknown opcode raises UnknownOpcode under policy `fault`, and under policy `stall` changes nothing in any
number of passes. The instance `step` runs the default, `fault` (D9, notes/assumptions/2.md). -/
def Obligations.UnknownOpcodeFollowsThePolicy : Prop :=
  (∀ (c : Config) (s : State) (op : Byte), s.running = true → s.fault = none → s.pc.toNat < 256 →
    s.mem.read s.pc.toNat = op → opcodeTable.lookup op = none →
    (c.unknownOpcodePolicy = .fault → ∃ t, stepWith c s = .next t ∧
      FaultsWith ⟨.unknownOpcode, s.pc, some op, op.toNat⟩ s t) ∧
    (c.unknownOpcodePolicy = .stall → ∀ n, runWith c n s = .next s)) ∧
  ∀ s, step s = stepWith { unknownOpcodePolicy := .fault } s

/-- R75: the operand bytes of a known opcode are the bytes after it; where the first missing one lies at 256 or above,
the step raises MemoryBounds for that address. -/
def Obligations.OperandFetchReportsTheFirstMissingByte : Prop :=
  ∀ (c : Config) (s : State) (i : Instr), s.running = true → s.fault = none → s.pc.toNat < 256 →
    s.mem.read s.pc.toNat = i.opcode →
    (2 ≤ i.length → 256 ≤ s.pc.toNat + 1 → ∃ t, stepWith c s = .next t ∧
      FaultsWith ⟨.memoryBounds, s.pc, some i.opcode, s.pc.toNat + 1⟩ s t) ∧
    (i.length = 3 → s.pc.toNat + 1 < 256 → 256 ≤ s.pc.toNat + 2 → ∃ t, stepWith c s = .next t ∧
      FaultsWith ⟨.memoryBounds, s.pc, some i.opcode, s.pc.toNat + 2⟩ s t) ∧
    (s.pc.toNat + i.length ≤ 256 → ∃ j, j.opcode = i.opcode ∧
      j.operandBytes = [s.mem.read (s.pc.toNat + 1), s.mem.read (s.pc.toNat + 2)].take (i.length - 1) ∧
      stepWith c s = exec j s)

/-- R14: pc leaves 0 to 255 only by an instruction that ends at cell 255 and goes on in sequence, and then holds 256;
jump, call and return targets never leave it. The 9-bit pc is the spec's decision D4 (notes/assumptions/6.md). -/
def Obligations.PcPassesTheLastCellOnlyInSequence : Prop :=
  ∀ (c : Config) (s t : State), s.pc.toNat < 256 → stepWith c s = .next t → 256 ≤ t.pc.toNat →
    t.pc.toNat = 256 ∧ ∃ i, s.fetchDecode = .ok i ∧ s.pc.toNat + i.length = 256 ∧
      i.opcode ∉ [0x01, 0x11, 0x50, 0x54]

/-! Faults -/

/-- R155: in each of the 17 instructions with a register operand, a register operand byte of 8 to 255 raises
RegisterBounds with that byte before the instruction does anything; with two register operands `ra` is reported first;
LDI's immediate is no register operand, and HLT and RET have none. -/
def Obligations.RegisterOperandOutOfRangeFaults : Prop :=
  ∀ (s : State) (ra rb imm : Byte),
    (8 ≤ ra.toNat →
      (∀ mk ∈ [Instr.prn, Instr.push, Instr.pop, Instr.call, Instr.jmp, Instr.jeq, Instr.jne, Instr.not],
        RaisesRegisterBounds (mk ra) s ra) ∧
      RaisesRegisterBounds (.ldi ra imm) s ra) ∧
    ∀ mk ∈ [Instr.mul, Instr.cmp, Instr.and, Instr.or, Instr.xor, Instr.shl, Instr.shr, Instr.mod],
      (8 ≤ ra.toNat → RaisesRegisterBounds (mk ra rb) s ra) ∧
      (ra.toNat < 8 → 8 ≤ rb.toNat → RaisesRegisterBounds (mk ra rb) s rb)

/-- R151 to R155: what a newly latched fault says of its cause, kind by kind, from every state that meets the invariant,
and that the bytes of a program cause no other. The codes are the spec's labels (D10, D11, notes/assumptions/14.md). -/
def Obligations.FaultRecordNamesItsCause : Prop :=
  ∀ (c : Config) (s t : State) (r : FaultRecord), s.Inv → s.fault = none → stepWith c s = .next t → t.fault = some r →
    r.pc = s.pc ∧
    match r.kind with
    | .divisionByZero => ∃ ra rb : Fin numRegs, s.fetchDecode = .ok (.mod (regByte ra) (regByte rb)) ∧
        s.reg rb = 0 ∧ r.opcode = some 0xA4 ∧ r.info = rb.val
    | .unknownOpcode => ∃ op, s.pc.toNat < 256 ∧ op = s.mem.read s.pc.toNat ∧ opcodeTable.lookup op = none ∧
        c.unknownOpcodePolicy = .fault ∧ r.opcode = some op ∧ r.info = op.toNat
    | .memoryBounds => r.info = 256 ∧
        ((s.pc.toNat = 256 ∧ r.opcode = none) ∨
         ∃ i : Instr, r.opcode = some i.opcode ∧ s.mem.read s.pc.toNat = i.opcode ∧
          ((s.pc.toNat = 255 ∧ 2 ≤ i.length) ∨ (s.pc.toNat = 254 ∧ i.length = 3) ∨
           (s.pc.toNat = 254 ∧ i.opcode = 0x50)))
    | .registerBounds => ∃ (i : Instr) (b : Byte), s.fetchDecode = .ok i ∧ b ∈ i.registerOperands ∧ 8 ≤ b.toNat ∧
        r.opcode = some i.opcode ∧ r.info = b.toNat

/-- The codes of R151 (D10, notes/assumptions/14.md) tell the four faults apart, and so does the status that the host
reads (R162): halted, faulted with the record, or not finished. -/
def Obligations.FaultsAreDistinguishable : Prop :=
  (faultCode .divisionByZero = 1 ∧ faultCode .unknownOpcode = 2 ∧ faultCode .memoryBounds = 3 ∧
    faultCode .registerBounds = 4) ∧
  ∀ s : State, (∀ r, s.status = .faulted r ↔ s.fault = some r) ∧ (s.status = .halted ↔ s.NormalEnd) ∧
    (s.status = .notFinished ↔ s.active = true)

/-- R80, R157: a running machine stops in one pass of the loop either by HLT, with pc still at the HLT byte, or by a
fault, with everything but the latch as it was and the record naming pc. Precise faults are the spec's decisions D7, D8
and D12 (notes/assumptions/14.md). -/
def Obligations.RunStopsOnlyByHltOrPreciseFault : Prop :=
  ∀ (c : Config) (s t : State), s.active = true → stepWith c s = .next t → t.active = false →
    (s.pc.toNat < 256 ∧ s.mem.read s.pc.toNat = 0x01 ∧ t = { s with running := false } ∧ t.NormalEnd) ∨
    (∃ r, FaultsWith r s t ∧ r.pc = s.pc ∧ t.running = true ∧ ¬ t.NormalEnd)

/-! Invariants and rules about the whole machine -/

/-- The state after reset, and every launch state, meets the invariant. -/
def Obligations.ResetAndLaunchMeetTheInvariant : Prop :=
  State.reset.Inv ∧ ∀ image : Byte → Byte, (State.launch image).Inv

/-- From every state that meets the invariant a step answers a next state, and that state meets it: memory stays in
canonical form, pc stays in 0 to 256 (R14), at most one flag is set (R16), and a latched fault stays a possible one
that names pc. Under either policy. -/
def Obligations.StepKeepsTheInvariant : Prop :=
  (∀ s t : State, s.Inv → step s = .next t → t.Inv) ∧
  ∀ (c : Config) (s : State), s.Inv → ∃ t, stepWith c s = .next t ∧ t.Inv

/-- Memories in canonical form that read the same at the 256 addresses are the same data. The form is the model's own
(notes/assumptions/17.md). -/
def Obligations.CanonicalMemoriesThatReadEqualAreEqual : Prop :=
  ∀ m n : Memory, m.wf = true → n.wf = true → (∀ a, a < 256 → m.read a = n.read a) → m = n

/-- R36, R30: only PUSH and CALL write memory, and only the cell just below the stack pointer. -/
def Obligations.OnlyPushAndCallWriteMemory : Prop :=
  ∀ (c : Config) (s t : State), stepWith c s = .next t → ∀ a, t.mem.read a ≠ s.mem.read a →
    (s.mem.read s.pc.toNat = 0x45 ∨ s.mem.read s.pc.toNat = 0x50) ∧ a = (s.sp - 1).toNat

/-- R10, the "written by" column of the registers: a register changes only as the destination of LDI, POP or an ALU
instruction other than CMP, or as the stack pointer of PUSH, POP, CALL or RET. -/
def Obligations.RegistersChangeOnlyAsDestinationOrStackPointer : Prop :=
  ∀ (c : Config) (s t : State) (q : Fin numRegs), stepWith c s = .next t → t.reg q ≠ s.reg q →
    ∃ i, s.fetchDecode = .ok i ∧
      ((i.operandBytes.head? = some (regByte q) ∧
        i.opcode ∈ [0x82, 0x46, 0xA2, 0xA8, 0xAA, 0xAB, 0x69, 0xAC, 0xAD, 0xA4]) ∨
       (q = 7 ∧ i.opcode ∈ [0x45, 0x46, 0x50, 0x11]))

/-- R15: CMP is the only instruction that writes FL. -/
def Obligations.OnlyCmpWritesFlags : Prop :=
  ∀ (c : Config) (s t : State), stepWith c s = .next t → t.flags ≠ s.flags → s.mem.read s.pc.toNat = 0xA7

/-- R15: no instruction reads G or L. Two states that differ in G and L alone, with the same E, step to states that
differ in G and L alone, or in nothing. -/
def Obligations.NothingReadsGreaterOrLess : Prop :=
  ∀ (c : Config) (s t : State) (f : Flags), f.E = s.flags.E → stepWith c s = .next t →
    ∃ g, stepWith c { s with flags := f } = .next { t with flags := g } ∧ g.E = t.flags.E ∧
      ((g = f ∧ t.flags = s.flags) ∨ g = t.flags)

/-- R16: at most one flag is set at any time, exactly one immediately after any comparison, and once exactly one is set
it stays so at every step; the four packed values are those the rule lists (the packing is D6,
notes/assumptions/10.md). -/
def Obligations.FlagsStayMutuallyExclusive : Prop :=
  State.reset.flags.atMostOne = true ∧
  (∀ (c : Config) (s t : State), stepWith c s = .next t →
    (s.flags.atMostOne = true → t.flags.atMostOne = true) ∧ (s.flags.exactlyOne = true → t.flags.exactlyOne = true)) ∧
  (∀ (s : State) (a b : Fin numRegs), ∃ t, exec (.cmp (regByte a) (regByte b)) s = .next t ∧
    t.flags.exactlyOne = true) ∧
  ∀ f : Flags, f.atMostOne = true → f.packed =
    if f.L then 0x04 else if f.G then 0x02 else if f.E then 0x01 else 0x00

/-- R17: `running` is false after reset, start sets it, HLT alone clears it, and nothing else in a run writes it; in
particular a fault does not clear it (D8, notes/assumptions/14.md). -/
def Obligations.OnlyHltClearsRunning : Prop :=
  State.reset.running = false ∧ (∀ s : State, s.start.running = true) ∧
  (∀ s : State, ∃ t, exec .hlt s = .next t ∧ t.running = false) ∧
  ∀ (c : Config) (s t : State), stepWith c s = .next t → t.running ≠ s.running →
    s.running = true ∧ t.fault = none ∧ s.mem.read s.pc.toNat = 0x01

/-- R19: the output stream only grows, by at most one byte in a step and by PRN alone, and no instruction reads it: with
any other output so far the same step appends the same byte and does everything else the same. The stream of bytes is
the spec's decision D21 (notes/assumptions/16.md). -/
def Obligations.OutputIsAppendOnlyAndNeverRead : Prop :=
  ∀ (c : Config) (s t : State), stepWith c s = .next t → ∃ emitted : List Byte,
    t.out = s.out ++ emitted ∧ emitted.length ≤ 1 ∧ (emitted ≠ [] → s.mem.read s.pc.toNat = 0x47) ∧
    ∀ o : List Byte, stepWith c { s with out := o } = .next { t with out := o ++ emitted }

/-! The ALU and its instructions. Register operand bytes 0 to 7 are written `regByte r`; every other byte is
`RegisterOperandOutOfRangeFaults`. -/

/-- R102, the numerics of the ALU for all operand values: nine values and the three flags of CMP. ADD, which no opcode
reaches, is among them (D19, notes/assumptions/20.md); the full shift count is D18 (notes/assumptions/13.md). -/
def Obligations.AluComputesTheTableOfNumerics : Prop :=
  ∀ a b : Byte,
    ((alu .add a b).result.map (·.toNat) = some ((a.toNat + b.toNat) % 256)) ∧
    ((alu .mul a b).result.map (·.toNat) = some ((a.toNat * b.toNat) % 256)) ∧
    ((alu .and a b).result = some (a &&& b)) ∧ ((alu .or a b).result = some (a ||| b)) ∧
    ((alu .xor a b).result = some (a ^^^ b)) ∧
    ((alu .not a b).result.map (·.toNat) = some (255 - a.toNat)) ∧
    ((alu .shl a b).result.map (·.toNat) = some ((a.toNat * 2 ^ b.toNat) % 256)) ∧
    ((alu .shr a b).result.map (·.toNat) = some (a.toNat / 2 ^ b.toNat)) ∧
    (b ≠ 0 → (alu .mod a b).result.map (·.toNat) = some (a.toNat % b.toNat)) ∧
    (∃ f, (alu .cmp a b).flags = some f ∧ (f.L = true ↔ a.toNat < b.toNat) ∧ (f.G = true ↔ a.toNat > b.toNat) ∧
      (f.E = true ↔ a.toNat = b.toNat)) ∧
    ((alu .cmp a b).result = none ∧ (alu .mod a 0).result = none) ∧
    (∀ op, (alu op a b).divzero = true ↔ op = .mod ∧ b = 0) ∧
    ∀ op, (alu op a b).flags.isSome = true ↔ op = .cmp

/-- R93: MUL. -/
def Obligations.MulWritesTheProductModulo256 : Prop :=
  ∀ (s : State) (ra rb : Fin numRegs),
    encode (.mul (regByte ra) (regByte rb)) = [0xA2, regByte ra, regByte rb] ∧
    WritesRegisterOnly (.mul (regByte ra) (regByte rb)) s ra (((s.reg ra).toNat * (s.reg rb).toNat) % 256) 3

/-- R94: CMP writes all three flags by unsigned comparison and no register; exactly one becomes 1. -/
def Obligations.CmpSetsFlagsByUnsignedComparison : Prop :=
  ∀ (s : State) (ra rb : Fin numRegs),
    encode (.cmp (regByte ra) (regByte rb)) = [0xA7, regByte ra, regByte rb] ∧
    ∃ t, exec (.cmp (regByte ra) (regByte rb)) s = .next t ∧
      (t.flags.L = true ↔ (s.reg ra).toNat < (s.reg rb).toNat) ∧
      (t.flags.G = true ↔ (s.reg ra).toNat > (s.reg rb).toNat) ∧
      (t.flags.E = true ↔ (s.reg ra).toNat = (s.reg rb).toNat) ∧ t.flags.exactlyOne = true ∧
      t.pc = s.pc + 3 ∧ SameRegsExcept [] s t ∧ t.out = s.out ∧ SameMemory s t ∧ SameControl s t

/-- R95, R96, R97: AND, OR and XOR. -/
def Obligations.BitwiseInstructionsCombineIntoTheFirstRegister : Prop :=
  ∀ (s : State) (ra rb : Fin numRegs),
    (encode (.and (regByte ra) (regByte rb)) = [0xA8, regByte ra, regByte rb] ∧
      WritesRegisterOnly (.and (regByte ra) (regByte rb)) s ra (s.reg ra &&& s.reg rb).toNat 3) ∧
    (encode (.or (regByte ra) (regByte rb)) = [0xAA, regByte ra, regByte rb] ∧
      WritesRegisterOnly (.or (regByte ra) (regByte rb)) s ra (s.reg ra ||| s.reg rb).toNat 3) ∧
    (encode (.xor (regByte ra) (regByte rb)) = [0xAB, regByte ra, regByte rb] ∧
      WritesRegisterOnly (.xor (regByte ra) (regByte rb)) s ra (s.reg ra ^^^ s.reg rb).toNat 3)

/-- R98: NOT, two bytes. -/
def Obligations.NotComplementsItsRegister : Prop :=
  ∀ (s : State) (ra : Fin numRegs),
    encode (.not (regByte ra)) = [0x69, regByte ra] ∧
    WritesRegisterOnly (.not (regByte ra)) s ra (255 - (s.reg ra).toNat) 2

/-- R99, R100: SHL and SHR by the whole count. A count of 8 or more gives 0 by the spec's decision D18
(notes/assumptions/13.md). -/
def Obligations.ShiftsUseTheWholeCount : Prop :=
  ∀ (s : State) (ra rb : Fin numRegs),
    (encode (.shl (regByte ra) (regByte rb)) = [0xAC, regByte ra, regByte rb] ∧
      WritesRegisterOnly (.shl (regByte ra) (regByte rb)) s ra (((s.reg ra).toNat * 2 ^ (s.reg rb).toNat) % 256) 3) ∧
    (encode (.shr (regByte ra) (regByte rb)) = [0xAD, regByte ra, regByte rb] ∧
      WritesRegisterOnly (.shr (regByte ra) (regByte rb)) s ra ((s.reg ra).toNat / 2 ^ (s.reg rb).toNat) 3) ∧
    (8 ≤ (s.reg rb).toNat →
      WritesRegisterOnly (.shl (regByte ra) (regByte rb)) s ra 0 3 ∧
      WritesRegisterOnly (.shr (regByte ra) (regByte rb)) s ra 0 3)

/-- R101, R152: MOD writes the unsigned remainder; a zero divisor raises DivisionByZero with the divisor register's
index, and nothing else changes. -/
def Obligations.ModWritesTheRemainderOrFaults : Prop :=
  ∀ (s : State) (ra rb : Fin numRegs),
    encode (.mod (regByte ra) (regByte rb)) = [0xA4, regByte ra, regByte rb] ∧
    (s.reg rb ≠ 0 →
      WritesRegisterOnly (.mod (regByte ra) (regByte rb)) s ra ((s.reg ra).toNat % (s.reg rb).toNat) 3) ∧
    (s.reg rb = 0 → ∃ t, exec (.mod (regByte ra) (regByte rb)) s = .next t ∧
      FaultsWith ⟨.divisionByZero, s.pc, some 0xA4, rb.val⟩ s t)

/-! Load, output, halt -/

/-- R110: LDI, for every immediate. -/
def Obligations.LdiLoadsTheImmediateUnchanged : Prop :=
  ∀ (s : State) (ra : Fin numRegs) (imm : Byte),
    encode (.ldi (regByte ra) imm) = [0x82, regByte ra, imm] ∧
    WritesRegisterOnly (.ldi (regByte ra) imm) s ra imm.toNat 3

/-- R111: PRN appends its register's byte to the output; the host renders it as a decimal integer. -/
def Obligations.PrnAppendsItsRegister : Prop :=
  ∀ (s : State) (ra : Fin numRegs),
    encode (.prn (regByte ra)) = [0x47, regByte ra] ∧
    ∃ t, exec (.prn (regByte ra)) s = .next t ∧ t.out = s.out ++ [s.reg ra] ∧
      t.rendered = s.rendered ++ [Nat.toDigits 10 (s.reg ra).toNat] ∧
      t.pc = s.pc + 2 ∧ SameRegsExcept [] s t ∧ t.flags = s.flags ∧ SameMemory s t ∧ SameControl s t

/-- R112: HLT clears `running` and changes nothing else, pc included; it is legal in the last cell; and no later pass of
the loop changes the state. -/
def Obligations.HltClearsRunningAndKeepsPc : Prop :=
  encode .hlt = [0x01] ∧
  (∀ s : State, ∃ t, exec .hlt s = .next t ∧ t.running = false ∧ t.fault = s.fault ∧ t.pc = s.pc ∧
    SameRegsExcept [] s t ∧ t.flags = s.flags ∧ t.out = s.out ∧ SameMemory s t ∧
    ∀ (c : Config) (n : Nat), runWith c n t = .next t) ∧
  ∀ (c : Config) (s : State), s.running = true → s.fault = none → s.pc.toNat = 255 → s.mem.read 255 = 0x01 →
    stepWith c s = .next { s with running := false }

/-- S2.2 of the source's testable properties: LDI followed by PRN on the same register emits the immediate. -/
def Obligations.LdiThenPrnEmitsTheImmediate : Prop :=
  ∀ (s : State) (ra : Fin numRegs) (imm : Byte), ∃ t u,
    exec (.ldi (regByte ra) imm) s = .next t ∧ exec (.prn (regByte ra)) t = .next u ∧
    u.out = s.out ++ [imm] ∧ u.reg ra = imm ∧ u.pc = s.pc + 5

/-! The stack -/

/-- R121: PUSH decrements SP modulo 256 and stores at the new SP the register's value after the decrement, so that PUSH
R7 stores the decremented SP (D15, D16, notes/assumptions/11.md). -/
def Obligations.PushStoresBelowTheStackPointer : Prop :=
  ∀ (s : State) (ra : Fin numRegs),
    encode (.push (regByte ra)) = [0x45, regByte ra] ∧
    ∃ t, exec (.push (regByte ra)) s = .next t ∧
      t.sp = s.sp - 1 ∧ t.sp.toNat = (s.sp.toNat + 255) % 256 ∧
      t.mem.read (s.sp - 1).toNat = (if ra = 7 then s.sp - 1 else s.reg ra) ∧ SameMemoryExcept (s.sp - 1) s t ∧
      t.pc = s.pc + 2 ∧ SameRegsExcept [7] s t ∧ t.flags = s.flags ∧ t.out = s.out ∧ SameControl s t

/-- R122: POP loads the byte at SP into its register and increments SP modulo 256; POP R7 leaves the loaded value plus 1
(D15, D16, notes/assumptions/11.md). Memory keeps the popped cell. -/
def Obligations.PopLoadsTheTopOfTheStack : Prop :=
  ∀ (s : State) (ra : Fin numRegs),
    encode (.pop (regByte ra)) = [0x46, regByte ra] ∧
    ∃ t, exec (.pop (regByte ra)) s = .next t ∧
      (ra ≠ 7 → t.reg ra = s.mem.read s.sp.toNat ∧ t.sp.toNat = (s.sp.toNat + 1) % 256) ∧
      (ra = 7 → t.sp.toNat = ((s.mem.read s.sp.toNat).toNat + 1) % 256) ∧
      t.pc = s.pc + 2 ∧ SameRegsExcept [ra, 7] s t ∧ t.flags = s.flags ∧ t.out = s.out ∧ SameMemory s t ∧
      SameControl s t

/-- S2.3: PUSH then POP of the same register restores every register, SP included. For register 7 this is by the literal
order of D16: the SP - 1 that PUSH R7 stored is loaded and then incremented; SP wraps by D15 (notes/assumptions/11.md). -/
def Obligations.PushThenPopRestoresRegisters : Prop :=
  ∀ (s : State) (ra : Fin numRegs), ∃ t u,
    exec (.push (regByte ra)) s = .next t ∧ exec (.pop (regByte ra)) t = .next u ∧
    (∀ q, u.reg q = s.reg q) ∧ u.pc = s.pc + 4 ∧ u.flags = s.flags ∧ u.out = s.out ∧ SameControl s u ∧
    SameMemoryExcept (s.sp - 1) s u

/-! Control transfer -/

/-- R131: JMP. -/
def Obligations.JmpGoesToItsRegister : Prop :=
  ∀ (s : State) (ra : Fin numRegs),
    encode (.jmp (regByte ra)) = [0x54, regByte ra] ∧ JumpsOnly (.jmp (regByte ra)) s (s.reg ra).toNat

/-- R132, R133: JEQ jumps when E is set and JNE when it is clear; each falls through by 2 otherwise. The fall-through is
stated where the instruction lies inside memory, which is where a step runs it. -/
def Obligations.ConditionalJumpsTestEqualOnly : Prop :=
  ∀ (s : State) (ra : Fin numRegs), s.pc.toNat + 2 ≤ 256 →
    encode (.jeq (regByte ra)) = [0x55, regByte ra] ∧ encode (.jne (regByte ra)) = [0x56, regByte ra] ∧
    JumpsOnly (.jeq (regByte ra)) s (if s.flags.E then (s.reg ra).toNat else s.pc.toNat + 2) ∧
    JumpsOnly (.jne (regByte ra)) s (if s.flags.E then s.pc.toNat + 2 else (s.reg ra).toNat)

/-- R134: CALL pushes the address of the next instruction and jumps to its register as it is after the push; where that
address is 256 or above it raises MemoryBounds and changes nothing else (D15, D16, D17, notes/assumptions/11.md and
12.md). -/
def Obligations.CallPushesTheReturnAddress : Prop :=
  ∀ (s : State) (ra : Fin numRegs),
    encode (.call (regByte ra)) = [0x50, regByte ra] ∧
    (s.pc.toNat + 2 < 256 → ∃ t, exec (.call (regByte ra)) s = .next t ∧
      t.sp = s.sp - 1 ∧ t.sp.toNat = (s.sp.toNat + 255) % 256 ∧
      (t.mem.read (s.sp - 1).toNat).toNat = s.pc.toNat + 2 ∧ SameMemoryExcept (s.sp - 1) s t ∧
      t.pc.toNat = (if ra = 7 then s.sp - 1 else s.reg ra).toNat ∧
      SameRegsExcept [7] s t ∧ t.flags = s.flags ∧ t.out = s.out ∧ SameControl s t) ∧
    (256 ≤ s.pc.toNat + 2 → ∃ t, exec (.call (regByte ra)) s = .next t ∧
      FaultsWith ⟨.memoryBounds, s.pc, some 0x50, s.pc.toNat + 2⟩ s t)

/-- R135: RET takes pc from the byte at SP and increments SP; memory is not written. That SP wraps modulo 256 is the
spec's decision D15 (notes/assumptions/11.md). -/
def Obligations.RetPopsThePc : Prop :=
  ∀ s : State, encode .ret = [0x11] ∧
    ∃ t, exec .ret s = .next t ∧ t.pc.toNat = (s.mem.read s.sp.toNat).toNat ∧
      t.sp.toNat = (s.sp.toNat + 1) % 256 ∧ SameRegsExcept [7] s t ∧ t.flags = s.flags ∧ t.out = s.out ∧
      SameMemory s t ∧ SameControl s t

/-- S2.4: CALL followed at once by RET returns to the instruction after the CALL and leaves every register as it was, SP
included, which wraps by D15 (notes/assumptions/11.md). -/
def Obligations.CallThenRetReturns : Prop :=
  ∀ (s : State) (ra : Fin numRegs), s.pc.toNat + 2 < 256 → ∃ t u,
    exec (.call (regByte ra)) s = .next t ∧ exec .ret t = .next u ∧
    u.pc.toNat = s.pc.toNat + 2 ∧ (∀ q, u.reg q = s.reg q) ∧ u.flags = s.flags ∧ u.out = s.out ∧ SameControl s u ∧
    SameMemoryExcept (s.sp - 1) s u

end
end

