-- ==== Sys2Proof/Laws/State.lean ====
section
/-! SUPPORT. What each state update does to each field of the state, one lemma per field and update, and what it does
to a register. -/

namespace Sys2Proof.Machine

/-! `setReg` -/

@[simp] theorem setReg_regs (s : State) (r : Fin numRegs) (v : Byte) : (s.setReg r v).regs = s.regs.set r v := rfl
@[simp] theorem setReg_pc (s : State) (r : Fin numRegs) (v : Byte) : (s.setReg r v).pc = s.pc := rfl
@[simp] theorem setReg_flags (s : State) (r : Fin numRegs) (v : Byte) : (s.setReg r v).flags = s.flags := rfl
@[simp] theorem setReg_running (s : State) (r : Fin numRegs) (v : Byte) : (s.setReg r v).running = s.running := rfl
@[simp] theorem setReg_fault (s : State) (r : Fin numRegs) (v : Byte) : (s.setReg r v).fault = s.fault := rfl
@[simp] theorem setReg_out (s : State) (r : Fin numRegs) (v : Byte) : (s.setReg r v).out = s.out := rfl
@[simp] theorem setReg_mem (s : State) (r : Fin numRegs) (v : Byte) : (s.setReg r v).mem = s.mem := rfl

/-! `setPc` -/

@[simp] theorem setPc_regs (s : State) (t : Pc) : (s.setPc t).regs = s.regs := rfl
@[simp] theorem setPc_pc (s : State) (t : Pc) : (s.setPc t).pc = t := rfl
@[simp] theorem setPc_flags (s : State) (t : Pc) : (s.setPc t).flags = s.flags := rfl
@[simp] theorem setPc_running (s : State) (t : Pc) : (s.setPc t).running = s.running := rfl
@[simp] theorem setPc_fault (s : State) (t : Pc) : (s.setPc t).fault = s.fault := rfl
@[simp] theorem setPc_out (s : State) (t : Pc) : (s.setPc t).out = s.out := rfl
@[simp] theorem setPc_mem (s : State) (t : Pc) : (s.setPc t).mem = s.mem := rfl
@[simp] theorem setPc_reg (s : State) (t : Pc) (q : Fin numRegs) : (s.setPc t).reg q = s.reg q := rfl

/-! `advance` -/

@[simp] theorem advance_regs (s : State) (n : Pc) : (s.advance n).regs = s.regs := rfl
@[simp] theorem advance_pc (s : State) (n : Pc) : (s.advance n).pc = s.pc + n := rfl
@[simp] theorem advance_flags (s : State) (n : Pc) : (s.advance n).flags = s.flags := rfl
@[simp] theorem advance_running (s : State) (n : Pc) : (s.advance n).running = s.running := rfl
@[simp] theorem advance_fault (s : State) (n : Pc) : (s.advance n).fault = s.fault := rfl
@[simp] theorem advance_out (s : State) (n : Pc) : (s.advance n).out = s.out := rfl
@[simp] theorem advance_mem (s : State) (n : Pc) : (s.advance n).mem = s.mem := rfl
@[simp] theorem advance_reg (s : State) (n : Pc) (q : Fin numRegs) : (s.advance n).reg q = s.reg q := rfl

/-! `jump` -/

@[simp] theorem jump_regs (s : State) (v : Byte) : (s.jump v).regs = s.regs := rfl
@[simp] theorem jump_pc (s : State) (v : Byte) : (s.jump v).pc = zext9 v := rfl
@[simp] theorem jump_flags (s : State) (v : Byte) : (s.jump v).flags = s.flags := rfl
@[simp] theorem jump_running (s : State) (v : Byte) : (s.jump v).running = s.running := rfl
@[simp] theorem jump_fault (s : State) (v : Byte) : (s.jump v).fault = s.fault := rfl
@[simp] theorem jump_out (s : State) (v : Byte) : (s.jump v).out = s.out := rfl
@[simp] theorem jump_mem (s : State) (v : Byte) : (s.jump v).mem = s.mem := rfl
@[simp] theorem jump_reg (s : State) (v : Byte) (q : Fin numRegs) : (s.jump v).reg q = s.reg q := rfl

/-! `setFlags` -/

@[simp] theorem setFlags_regs (s : State) (f : Flags) : (s.setFlags f).regs = s.regs := rfl
@[simp] theorem setFlags_pc (s : State) (f : Flags) : (s.setFlags f).pc = s.pc := rfl
@[simp] theorem setFlags_flags (s : State) (f : Flags) : (s.setFlags f).flags = f := rfl
@[simp] theorem setFlags_running (s : State) (f : Flags) : (s.setFlags f).running = s.running := rfl
@[simp] theorem setFlags_fault (s : State) (f : Flags) : (s.setFlags f).fault = s.fault := rfl
@[simp] theorem setFlags_out (s : State) (f : Flags) : (s.setFlags f).out = s.out := rfl
@[simp] theorem setFlags_mem (s : State) (f : Flags) : (s.setFlags f).mem = s.mem := rfl
@[simp] theorem setFlags_reg (s : State) (f : Flags) (q : Fin numRegs) : (s.setFlags f).reg q = s.reg q := rfl

/-! `emit` -/

@[simp] theorem emit_regs (s : State) (v : Byte) : (s.emit v).regs = s.regs := rfl
@[simp] theorem emit_pc (s : State) (v : Byte) : (s.emit v).pc = s.pc := rfl
@[simp] theorem emit_flags (s : State) (v : Byte) : (s.emit v).flags = s.flags := rfl
@[simp] theorem emit_running (s : State) (v : Byte) : (s.emit v).running = s.running := rfl
@[simp] theorem emit_fault (s : State) (v : Byte) : (s.emit v).fault = s.fault := rfl
@[simp] theorem emit_out (s : State) (v : Byte) : (s.emit v).out = s.out ++ [v] := rfl
@[simp] theorem emit_mem (s : State) (v : Byte) : (s.emit v).mem = s.mem := rfl
@[simp] theorem emit_reg (s : State) (v : Byte) (q : Fin numRegs) : (s.emit v).reg q = s.reg q := rfl

/-! `halt` -/

@[simp] theorem halt_regs (s : State) : (s.halt).regs = s.regs := rfl
@[simp] theorem halt_pc (s : State) : (s.halt).pc = s.pc := rfl
@[simp] theorem halt_flags (s : State) : (s.halt).flags = s.flags := rfl
@[simp] theorem halt_running (s : State) : (s.halt).running = false := rfl
@[simp] theorem halt_fault (s : State) : (s.halt).fault = s.fault := rfl
@[simp] theorem halt_out (s : State) : (s.halt).out = s.out := rfl
@[simp] theorem halt_mem (s : State) : (s.halt).mem = s.mem := rfl
@[simp] theorem halt_reg (s : State) (q : Fin numRegs) : (s.halt).reg q = s.reg q := rfl

/-! `latchFault` -/

@[simp] theorem latchFault_regs (s : State) (r : FaultRecord) : (s.latchFault r).regs = s.regs := rfl
@[simp] theorem latchFault_pc (s : State) (r : FaultRecord) : (s.latchFault r).pc = s.pc := rfl
@[simp] theorem latchFault_flags (s : State) (r : FaultRecord) : (s.latchFault r).flags = s.flags := rfl
@[simp] theorem latchFault_running (s : State) (r : FaultRecord) : (s.latchFault r).running = s.running := rfl
@[simp] theorem latchFault_fault (s : State) (r : FaultRecord) : (s.latchFault r).fault = some r := rfl
@[simp] theorem latchFault_out (s : State) (r : FaultRecord) : (s.latchFault r).out = s.out := rfl
@[simp] theorem latchFault_mem (s : State) (r : FaultRecord) : (s.latchFault r).mem = s.mem := rfl
@[simp] theorem latchFault_reg (s : State) (r : FaultRecord) (q : Fin numRegs) : (s.latchFault r).reg q = s.reg q := rfl

/-! `storeByte` -/

@[simp] theorem storeByte_regs (s : State) (a v : Byte) : (s.storeByte a v).regs = s.regs := rfl
@[simp] theorem storeByte_pc (s : State) (a v : Byte) : (s.storeByte a v).pc = s.pc := rfl
@[simp] theorem storeByte_flags (s : State) (a v : Byte) : (s.storeByte a v).flags = s.flags := rfl
@[simp] theorem storeByte_running (s : State) (a v : Byte) : (s.storeByte a v).running = s.running := rfl
@[simp] theorem storeByte_fault (s : State) (a v : Byte) : (s.storeByte a v).fault = s.fault := rfl
@[simp] theorem storeByte_out (s : State) (a v : Byte) : (s.storeByte a v).out = s.out := rfl
@[simp] theorem storeByte_mem (s : State) (a v : Byte) : (s.storeByte a v).mem = s.mem.write a.toNat v := rfl
@[simp] theorem storeByte_reg (s : State) (a v : Byte) (q : Fin numRegs) : (s.storeByte a v).reg q = s.reg q := rfl

/-! `dropTop` -/

@[simp] theorem dropTop_regs (s : State) : (s.dropTop).regs = s.regs.set spIndex (s.sp + 1) := rfl
@[simp] theorem dropTop_pc (s : State) : (s.dropTop).pc = s.pc := rfl
@[simp] theorem dropTop_flags (s : State) : (s.dropTop).flags = s.flags := rfl
@[simp] theorem dropTop_running (s : State) : (s.dropTop).running = s.running := rfl
@[simp] theorem dropTop_fault (s : State) : (s.dropTop).fault = s.fault := rfl
@[simp] theorem dropTop_out (s : State) : (s.dropTop).out = s.out := rfl
@[simp] theorem dropTop_mem (s : State) : (s.dropTop).mem = s.mem := rfl

/-! `pushByte` -/

@[simp] theorem pushByte_regs (v : State → Byte) (s : State) : (pushByte v s).regs = s.regs.set spIndex (s.sp - 1) := rfl
@[simp] theorem pushByte_pc (v : State → Byte) (s : State) : (pushByte v s).pc = s.pc := rfl
@[simp] theorem pushByte_flags (v : State → Byte) (s : State) : (pushByte v s).flags = s.flags := rfl
@[simp] theorem pushByte_running (v : State → Byte) (s : State) : (pushByte v s).running = s.running := rfl
@[simp] theorem pushByte_fault (v : State → Byte) (s : State) : (pushByte v s).fault = s.fault := rfl
@[simp] theorem pushByte_out (v : State → Byte) (s : State) : (pushByte v s).out = s.out := rfl

/-! `load` -/

@[simp] theorem load_regs (s : State) (image : Byte → Byte) : (s.load image).regs = s.regs := rfl
@[simp] theorem load_pc (s : State) (image : Byte → Byte) : (s.load image).pc = s.pc := rfl
@[simp] theorem load_flags (s : State) (image : Byte → Byte) : (s.load image).flags = s.flags := rfl
@[simp] theorem load_running (s : State) (image : Byte → Byte) : (s.load image).running = s.running := rfl
@[simp] theorem load_fault (s : State) (image : Byte → Byte) : (s.load image).fault = s.fault := rfl
@[simp] theorem load_out (s : State) (image : Byte → Byte) : (s.load image).out = s.out := rfl
@[simp] theorem load_mem (s : State) (image : Byte → Byte) : (s.load image).mem = imageCells image memSize := rfl
@[simp] theorem load_reg (s : State) (image : Byte → Byte) (q : Fin numRegs) : (s.load image).reg q = s.reg q := rfl

/-! `start` -/

@[simp] theorem start_regs (s : State) : (s.start).regs = s.regs := rfl
@[simp] theorem start_pc (s : State) : (s.start).pc = s.pc := rfl
@[simp] theorem start_flags (s : State) : (s.start).flags = s.flags := rfl
@[simp] theorem start_running (s : State) : (s.start).running = true := rfl
@[simp] theorem start_fault (s : State) : (s.start).fault = s.fault := rfl
@[simp] theorem start_out (s : State) : (s.start).out = s.out := rfl
@[simp] theorem start_mem (s : State) : (s.start).mem = s.mem := rfl
@[simp] theorem start_reg (s : State) (q : Fin numRegs) : (s.start).reg q = s.reg q := rfl

/-! `activate` -/

@[simp] theorem activate_regs (s : State) : (s.activate).regs = s.regs := rfl
@[simp] theorem activate_pc (s : State) : (s.activate).pc = s.pc := rfl
@[simp] theorem activate_flags (s : State) : (s.activate).flags = s.flags := rfl
@[simp] theorem activate_running (s : State) : (s.activate).running = true := rfl
@[simp] theorem activate_fault (s : State) : (s.activate).fault = none := rfl
@[simp] theorem activate_out (s : State) : (s.activate).out = s.out := rfl
@[simp] theorem activate_mem (s : State) : (s.activate).mem = s.mem := rfl
@[simp] theorem activate_reg (s : State) (q : Fin numRegs) : (s.activate).reg q = s.reg q := rfl

/-! Registers -/

theorem sp_eq (s : State) : s.sp = s.reg spIndex := rfl

@[simp] theorem setReg_reg_self (s : State) (r : Fin numRegs) (v : Byte) : (s.setReg r v).reg r = v := by
  simp [State.reg, State.setReg]

theorem setReg_reg (s : State) (r q : Fin numRegs) (v : Byte) :
    (s.setReg r v).reg q = if q = r then v else s.reg q := by
  simp [State.reg, State.setReg, Vector.getElem_set, Fin.ext_iff, eq_comm]

theorem setReg_reg_of_ne (s : State) {r q : Fin numRegs} (v : Byte) (h : q ≠ r) :
    (s.setReg r v).reg q = s.reg q := by
  simp [setReg_reg, h]

@[simp] theorem setReg_sp_self (s : State) (v : Byte) : (s.setReg spIndex v).sp = v := setReg_reg_self s _ v

/-- Two register files that agree on every register are the same. -/
theorem regs_ext {s t : State} (h : ∀ q, t.reg q = s.reg q) : t.regs = s.regs :=
  Vector.ext fun i hi => h ⟨i, hi⟩

/-! The stack operations on registers and memory -/

theorem dropTop_reg (s : State) (q : Fin numRegs) :
    s.dropTop.reg q = if q = spIndex then s.sp + 1 else s.reg q := setReg_reg s spIndex q _

theorem pushByte_reg (v : State → Byte) (s : State) (q : Fin numRegs) :
    (pushByte v s).reg q = if q = spIndex then s.sp - 1 else s.reg q := setReg_reg s spIndex q _

@[simp] theorem pushByte_mem (v : State → Byte) (s : State) :
    (pushByte v s).mem = s.mem.write (s.sp - 1).toNat (v (s.setReg spIndex (s.sp - 1))) := by
  simp [pushByte]

end Sys2Proof.Machine
end

