-- ==== Sys2Proof/Laws/Ops.lean ====
section
/-! SUPPORT. What each shared operation of the machine can do, said once: raising a fault, the operand forms, the ALU data
path, the conditional jump, and a step. -/

namespace Sys2Proof.Machine

/-- Raising a fault writes the latch and nothing else (spec/60_exceptions.md R157). -/
@[simp] theorem raise_eq (kind : FaultKind) (opcode : Option Byte) (info : Nat) (s : State) :
    raise kind opcode info s =
      .next { s with fault := some { kind := kind, pc := s.pc, opcode := opcode, info := info } } := rfl

/-! Operand forms -/

@[simp] theorem registerOperand_regByte (r : Fin numRegs) : registerOperand (regByte r) = some r := by
  revert r
  decide

theorem regByte_toNat (r : Fin numRegs) : (regByte r).toNat = r.val := by
  revert r
  decide

/-- A byte that names a register is that register's byte, and one that names none is 8 or more. -/
theorem registerOperand_cases (b : Byte) :
    (∃ r, registerOperand b = some r ∧ b = regByte r) ∨ (registerOperand b = none ∧ 8 ≤ b.toNat) := by
  unfold registerOperand
  split
  case isTrue h => exact .inl ⟨⟨b.toNat, h⟩, rfl, BitVec.eq_of_toNat_eq (by simp [regByte])⟩
  case isFalse h => exact .inr ⟨rfl, Nat.le_of_not_lt h⟩

theorem registerOperand_of_ge {b : Byte} (h : 8 ≤ b.toNat) : registerOperand b = none :=
  dif_neg (Nat.not_lt.2 h)

@[simp] theorem withRegister_regByte (opcode : Byte) (r : Fin numRegs) (s : State) (body : Fin numRegs → StepResult) :
    withRegister opcode (regByte r) s body = body r := by
  simp [withRegister]

theorem withRegister_of_ge {ra : Byte} (h : 8 ≤ ra.toNat) (opcode : Byte) (s : State)
    (body : Fin numRegs → StepResult) :
    withRegister opcode ra s body = raise .registerBounds (some opcode) ra.toNat s := by
  simp [withRegister, registerOperand_of_ge h]

/-- Formats `R` and `RI`: the body runs on the register named, or RegisterBounds is raised. -/
theorem withRegister_cases (opcode ra : Byte) (s : State) (body : Fin numRegs → StepResult) :
    (∃ r, ra = regByte r ∧ withRegister opcode ra s body = body r) ∨
    (8 ≤ ra.toNat ∧ withRegister opcode ra s body = raise .registerBounds (some opcode) ra.toNat s) := by
  rcases registerOperand_cases ra with ⟨r, -, rfl⟩ | ⟨-, hge⟩
  · exact .inl ⟨r, rfl, by simp⟩
  · exact .inr ⟨hge, withRegister_of_ge hge ..⟩

@[simp] theorem withRegisters_regByte (opcode : Byte) (a b : Fin numRegs) (s : State)
    (body : Fin numRegs → Fin numRegs → StepResult) :
    withRegisters opcode (regByte a) (regByte b) s body = body a b := by
  simp [withRegisters]

/-- Format `RR`: the body runs on the two registers named, or RegisterBounds is raised for the first byte out of
range. -/
theorem withRegisters_cases (opcode ra rb : Byte) (s : State) (body : Fin numRegs → Fin numRegs → StepResult) :
    (∃ a b, ra = regByte a ∧ rb = regByte b ∧ withRegisters opcode ra rb s body = body a b) ∨
    (8 ≤ ra.toNat ∧ withRegisters opcode ra rb s body = raise .registerBounds (some opcode) ra.toNat s) ∨
    (ra.toNat < 8 ∧ 8 ≤ rb.toNat ∧
      withRegisters opcode ra rb s body = raise .registerBounds (some opcode) rb.toNat s) := by
  rcases registerOperand_cases ra with ⟨a, -, rfl⟩ | ⟨-, hge⟩
  · rcases registerOperand_cases rb with ⟨b, -, rfl⟩ | ⟨-, hge⟩
    · exact .inl ⟨a, b, rfl, rfl, by simp⟩
    · refine .inr (.inr ⟨by simp [regByte_toNat], hge, ?_⟩)
      rw [withRegisters, withRegister_regByte, withRegister_of_ge hge]
  · exact .inr (.inl ⟨hge, withRegister_of_ge hge ..⟩)

/-! The ALU data path -/

/-- The ALU reports a zero divisor for MOD by 0 only. -/
theorem alu_divzero (op : AluOp) (a b : Byte) : (alu op a b).divzero = true ↔ op = .mod ∧ b = 0 := by
  cases op <;> simp [alu, aluValue]
  split <;> simp_all

/-- The ALU answers flags for CMP only. -/
theorem alu_flags (op : AluOp) (a b : Byte) :
    (alu op a b).flags = if op = .cmp then some (compareFlags a b) else none := by
  cases op <;> simp [alu, aluValue]
  split <;> rfl

/-- An ALU instruction either raises DivisionByZero, which only MOD does, or completes: it writes at most its
destination register and FL, and moves pc past itself. -/
theorem aluStep_cases (op : AluOp) (opcode : Byte) (a b : Fin numRegs) (len : Pc) (s : State) :
    (op = .mod ∧ s.reg b = 0 ∧ aluStep op opcode a b len s = raise .divisionByZero (some opcode) b.val s) ∨
    (∃ v, (alu op (s.reg a) (s.reg b)).result = some v ∧ op ≠ .cmp ∧
      aluStep op opcode a b len s = .next ((s.setReg a v).advance len)) ∨
    (op = .cmp ∧ aluStep op opcode a b len s = .next ((s.setFlags (compareFlags (s.reg a) (s.reg b))).advance len)) := by
  cases op
  case cmp => exact .inr (.inr ⟨rfl, rfl⟩)
  case mod =>
    by_cases hb : s.reg b = 0
    · exact .inl ⟨rfl, hb, by simp [aluStep, alu, hb]⟩
    · have ho : alu .mod (s.reg a) (s.reg b) = aluValue (s.reg a % s.reg b) := if_neg hb
      exact .inr (.inl ⟨s.reg a % s.reg b, by rw [ho]; rfl, by decide, by rw [aluStep, ho]; rfl⟩)
  all_goals exact .inr (.inl ⟨_, rfl, by decide, rfl⟩)

/-! The conditional jump -/

theorem jumpIf_cases (taken : Bool) (a : Fin numRegs) (s : State) :
    (taken = true ∧ jumpIf taken a s = .next (s.jump (s.reg a))) ∨
    (taken = false ∧ jumpIf taken a s = .next (s.advance 2)) := by
  cases taken
  · exact .inr ⟨rfl, rfl⟩
  · exact .inl ⟨rfl, rfl⟩

/-! The step -/

theorem active_iff (s : State) : s.active = true ↔ s.running = true ∧ s.fault = none := by
  simp [State.active]

/-- Everything one pass of the loop can be (spec/40_dispatch_loop.md R76): no step, the instruction decoded at pc, or a
fetch or decode phase that gives no instruction. -/
theorem stepWith_cases (c : Config) (s : State) :
    (s.active = false ∧ stepWith c s = .next s) ∨
    (s.active = true ∧ ∃ i, s.fetchDecode = .ok i ∧ stepWith c s = exec i s) ∨
    (s.active = true ∧ ∃ e, s.fetchDecode = .error e ∧ stepWith c s = noInstruction c e s) := by
  cases ha : s.active
  · exact .inl ⟨rfl, by simp [stepWith, ha, idle]⟩
  · cases hd : s.fetchDecode with
    | ok i => exact .inr (.inl ⟨rfl, i, rfl, by simp [stepWith, ha, hd]⟩)
    | error e => exact .inr (.inr ⟨rfl, e, rfl, by simp [stepWith, ha, hd]⟩)

/-- What the machine does where there is no instruction: one of the two MemoryBounds faults, UnknownOpcode, or the
stall. -/
theorem noInstruction_cases (c : Config) (e : DecodeError) (s : State) :
    (e = .noOpcode ∧ noInstruction c e s = raise .memoryBounds none s.pc.toNat s) ∨
    (∃ op, e = .unknownOpcode op ∧ c.unknownOpcodePolicy = .fault ∧
      noInstruction c e s = raise .unknownOpcode (some op) op.toNat s) ∨
    (∃ op, e = .unknownOpcode op ∧ c.unknownOpcodePolicy = .stall ∧ noInstruction c e s = .next s) ∨
    (∃ op which, e = .missingOperand op which ∧
      noInstruction c e s = raise .memoryBounds (some op) (s.pc.toNat + which) s) := by
  cases e with
  | noOpcode => exact .inl ⟨rfl, rfl⟩
  | unknownOpcode op =>
    cases hp : c.unknownOpcodePolicy with
    | fault => exact .inr (.inl ⟨op, rfl, rfl, by simp [noInstruction, unknownOpcode, hp]⟩)
    | stall => exact .inr (.inr (.inl ⟨op, rfl, rfl, by simp [noInstruction, unknownOpcode, hp]⟩))
  | missingOperand op which => exact .inr (.inr (.inr ⟨op, which, rfl, rfl⟩))

end Sys2Proof.Machine
end

