-- ==== Sys2Proof/Laws/Exec.lean ====
section
/-! SUPPORT. Everything the meaning of an instruction can do, said once: it raises one of three faults, or has one of
nine shapes of effect. -/

namespace Sys2Proof.Machine

/-- The opcodes of the instructions that write one general register and nothing else: LDI and the ALU instructions but
CMP. -/
def registerWriters : List Byte := [0x82, 0xA2, 0xA4, 0xA8, 0xAA, 0xAB, 0x69, 0xAC, 0xAD]

/-- The opcodes of JMP, JEQ and JNE. -/
def plainJumps : List Byte := [0x54, 0x55, 0x56]

/-- The faults a meaning can raise (spec/60_exceptions.md R156, items 5 to 7). -/
def ExecFault (i : Instr) (s : State) : Prop :=
  (∃ b ∈ i.registerOperands, 8 ≤ b.toNat ∧ exec i s = raise .registerBounds (some i.opcode) b.toNat s) ∨
  (∃ a b, i = .mod (regByte a) (regByte b) ∧ s.reg b = 0 ∧
    exec i s = raise .divisionByZero (some i.opcode) b.val s) ∨
  (∃ a, i = .call (regByte a) ∧ 256 ≤ s.pc.toNat + 2 ∧
    exec i s = raise .memoryBounds (some i.opcode) (s.pc.toNat + 2) s)

/-- The effects of a meaning that raises no fault. -/
def ExecEffect (i : Instr) (s : State) : Prop :=
  (∃ a v, i.opcode ∈ registerWriters ∧ i.operandBytes.head? = some (regByte a) ∧
    exec i s = .next ((s.setReg a v).advance (BitVec.ofNat 9 i.length))) ∨
  (∃ a b, i = .cmp (regByte a) (regByte b) ∧
    exec i s = .next ((s.setFlags (compareFlags (s.reg a) (s.reg b))).advance 3)) ∨
  (∃ a, i = .prn (regByte a) ∧ exec i s = .next ((s.emit (s.reg a)).advance 2)) ∨
  (i = .hlt ∧ exec i s = .next s.halt) ∨
  (∃ a, i = .push (regByte a) ∧ exec i s = .next ((pushByte (fun s1 => s1.reg a) s).advance 2)) ∨
  (∃ a, i = .pop (regByte a) ∧ exec i s = .next ((s.setReg a s.topOfStack).dropTop.advance 2)) ∨
  (∃ a, i.opcode ∈ plainJumps ∧ i.operandBytes = [regByte a] ∧
    (exec i s = .next (s.jump (s.reg a)) ∨ exec i s = .next (s.advance 2))) ∨
  (∃ a, i = .call (regByte a) ∧ s.pc.toNat + 2 < 256 ∧ ∃ s1,
    s1 = pushByte (fun _ => BitVec.ofNat 8 (s.pc.toNat + 2)) s ∧ exec i s = .next (s1.jump (s1.reg a))) ∨
  (i = .ret ∧ exec i s = .next (s.dropTop.jump s.topOfStack))

/-- A register-only ALU instruction of format `RR`. -/
theorem aluBinary_cases {op : AluOp} {i : Instr} {ra rb : Byte} {s : State} (hop : op ≠ .cmp)
    (he : exec i s = aluBinary op i.opcode ra rb s) (hregs : i.registerOperands = [ra, rb])
    (hbytes : i.operandBytes = [ra, rb]) (hlen : i.length = 3) (hw : i.opcode ∈ registerWriters)
    (hmod : op = .mod → i = .mod ra rb) : ExecFault i s ∨ ExecEffect i s := by
  rcases withRegisters_cases i.opcode ra rb s (fun a b => aluStep op i.opcode a b 3 s) with
    ⟨a, b, rfl, rfl, e⟩ | ⟨hge, e⟩ | ⟨-, hge, e⟩
  · rw [← aluBinary, ← he] at e
    rcases aluStep_cases op i.opcode a b 3 s with ⟨hm, hb, e'⟩ | ⟨v, -, -, e'⟩ | ⟨hc, -⟩
    · exact .inl (.inr (.inl ⟨a, b, hmod hm, hb, e.trans e'⟩))
    · exact .inr (.inl ⟨a, v, hw, by rw [hbytes]; rfl, by rw [e, e', hlen]; rfl⟩)
    · exact absurd hc hop
  · exact .inl (.inl ⟨ra, by simp [hregs], hge, he.trans e⟩)
  · exact .inl (.inl ⟨rb, by simp [hregs], hge, he.trans e⟩)

/-- The meaning of an instruction raises a fault or has one of the effects, for every instruction and every state. -/
theorem exec_cases (i : Instr) (s : State) : ExecFault i s ∨ ExecEffect i s := by
  have bounds : ∀ {b : Byte} (body), b ∈ i.registerOperands → 8 ≤ b.toNat →
      exec i s = withRegister i.opcode b s body → ExecFault i s :=
    fun {b} body hm hge he => .inl ⟨b, hm, hge, he.trans (withRegister_of_ge hge ..)⟩
  cases i with
  | ldi ra imm =>
    rcases registerOperand_cases ra with ⟨a, -, rfl⟩ | ⟨-, hge⟩
    · exact .inr (.inl ⟨a, imm, by simp [Instr.opcode, registerWriters], rfl, withRegister_regByte ..⟩)
    · exact .inl (bounds _ (by simp [Instr.registerOperands]) hge rfl)
  | prn ra =>
    rcases registerOperand_cases ra with ⟨a, -, rfl⟩ | ⟨-, hge⟩
    · exact .inr (.inr (.inr (.inl ⟨a, rfl, withRegister_regByte ..⟩)))
    · exact .inl (bounds _ (by simp [Instr.registerOperands]) hge rfl)
  | mul ra rb => exact aluBinary_cases (op := .mul) (by decide) rfl rfl rfl rfl (by simp [Instr.opcode, registerWriters]) nofun
  | hlt => exact .inr (.inr (.inr (.inr (.inl ⟨rfl, rfl⟩))))
  | push ra =>
    rcases registerOperand_cases ra with ⟨a, -, rfl⟩ | ⟨-, hge⟩
    · exact .inr (.inr (.inr (.inr (.inr (.inl ⟨a, rfl, withRegister_regByte ..⟩)))))
    · exact .inl (bounds _ (by simp [Instr.registerOperands]) hge rfl)
  | pop ra =>
    rcases registerOperand_cases ra with ⟨a, -, rfl⟩ | ⟨-, hge⟩
    · exact .inr (.inr (.inr (.inr (.inr (.inr (.inl ⟨a, rfl, withRegister_regByte ..⟩))))))
    · exact .inl (bounds _ (by simp [Instr.registerOperands]) hge rfl)
  | ret => exact .inr (.inr (.inr (.inr (.inr (.inr (.inr (.inr (.inr ⟨rfl, rfl⟩))))))))
  | call ra =>
    rcases registerOperand_cases ra with ⟨a, -, rfl⟩ | ⟨-, hge⟩
    · by_cases hret : 256 ≤ s.pc.toNat + 2
      · exact .inl (.inr (.inr ⟨a, rfl, hret, (withRegister_regByte ..).trans (if_pos hret)⟩))
      · exact .inr (.inr (.inr (.inr (.inr (.inr (.inr (.inr (.inl ⟨a, rfl, Nat.lt_of_not_le hret, _, rfl,
          (withRegister_regByte ..).trans (if_neg hret)⟩))))))))
    · exact .inl (bounds _ (by simp [Instr.registerOperands]) hge rfl)
  | cmp ra rb =>
    rcases withRegisters_cases (Instr.cmp ra rb).opcode ra rb s
        (fun a b => aluStep .cmp (Instr.cmp ra rb).opcode a b 3 s) with ⟨a, b, rfl, rfl, e⟩ | ⟨hge, e⟩ | ⟨-, hge, e⟩
    · exact .inr (.inr (.inl ⟨a, b, rfl, e⟩))
    · exact .inl (.inl ⟨ra, by simp [Instr.registerOperands], hge, e⟩)
    · exact .inl (.inl ⟨rb, by simp [Instr.registerOperands], hge, e⟩)
  | jeq ra =>
    rcases registerOperand_cases ra with ⟨a, -, rfl⟩ | ⟨-, hge⟩
    · refine .inr (.inr (.inr (.inr (.inr (.inr (.inr (.inl ⟨a, by simp [Instr.opcode, plainJumps], rfl, ?_⟩)))))))
      rw [show exec (.jeq (regByte a)) s = jumpIf s.equalFlag a s from withRegister_regByte ..]
      exact (jumpIf_cases s.equalFlag a s).imp And.right And.right
    · exact .inl (bounds _ (by simp [Instr.registerOperands]) hge rfl)
  | jne ra =>
    rcases registerOperand_cases ra with ⟨a, -, rfl⟩ | ⟨-, hge⟩
    · refine .inr (.inr (.inr (.inr (.inr (.inr (.inr (.inl ⟨a, by simp [Instr.opcode, plainJumps], rfl, ?_⟩)))))))
      rw [show exec (.jne (regByte a)) s = jumpIf (!s.equalFlag) a s from withRegister_regByte ..]
      exact (jumpIf_cases (!s.equalFlag) a s).imp And.right And.right
    · exact .inl (bounds _ (by simp [Instr.registerOperands]) hge rfl)
  | jmp ra =>
    rcases registerOperand_cases ra with ⟨a, -, rfl⟩ | ⟨-, hge⟩
    · exact .inr (.inr (.inr (.inr (.inr (.inr (.inr (.inl ⟨a, by simp [Instr.opcode, plainJumps], rfl,
        .inl (withRegister_regByte ..)⟩)))))))
    · exact .inl (bounds _ (by simp [Instr.registerOperands]) hge rfl)
  | and ra rb => exact aluBinary_cases (op := .and) (by decide) rfl rfl rfl rfl (by simp [Instr.opcode, registerWriters]) nofun
  | or ra rb => exact aluBinary_cases (op := .or) (by decide) rfl rfl rfl rfl (by simp [Instr.opcode, registerWriters]) nofun
  | xor ra rb => exact aluBinary_cases (op := .xor) (by decide) rfl rfl rfl rfl (by simp [Instr.opcode, registerWriters]) nofun
  | not ra =>
    rcases registerOperand_cases ra with ⟨a, -, rfl⟩ | ⟨-, hge⟩
    · exact .inr (.inl ⟨a, ~~~(s.reg a), by simp [Instr.opcode, registerWriters], rfl, withRegister_regByte ..⟩)
    · exact .inl (bounds _ (by simp [Instr.registerOperands]) hge rfl)
  | shl ra rb => exact aluBinary_cases (op := .shl) (by decide) rfl rfl rfl rfl (by simp [Instr.opcode, registerWriters]) nofun
  | shr ra rb => exact aluBinary_cases (op := .shr) (by decide) rfl rfl rfl rfl (by simp [Instr.opcode, registerWriters]) nofun
  | mod ra rb => exact aluBinary_cases (op := .mod) (by decide) rfl rfl rfl rfl (by simp [Instr.opcode, registerWriters]) (fun _ => rfl)

end Sys2Proof.Machine
end

