-- ==== Sys2Proof/Laws/Fetch.lean ====
section
/-! SUPPORT. What the fetch window holds, by the place of pc. -/

namespace Sys2Proof.Machine

theorem memRead?_of_lt {s : State} {a : Nat} (h : a < 256) : s.memRead? a = some (s.mem.read a) := if_pos h

theorem memRead?_of_ge {s : State} {a : Nat} (h : 256 ≤ a) : s.memRead? a = none := if_neg (Nat.not_lt.2 h)

/-- Above memory nothing is fetched (spec/40_dispatch_loop.md R72). -/
theorem fetchWindow_of_ge {s : State} (h : 256 ≤ s.pc.toNat) : s.fetchWindow = [] := by
  simp [State.fetchWindow, memRead?_of_ge h, memRead?_of_ge (Nat.le_add_right_of_le h)]

theorem fetchWindow_last {s : State} (h : s.pc.toNat = 255) : s.fetchWindow = [s.mem.read 255] := by
  simp [State.fetchWindow, h, List.filterMap, State.memRead?, memSize]

theorem fetchWindow_last_two {s : State} (h : s.pc.toNat = 254) :
    s.fetchWindow = [s.mem.read 254, s.mem.read 255] := by
  simp [State.fetchWindow, h, List.filterMap, State.memRead?, memSize]

theorem fetchWindow_whole {s : State} (h : s.pc.toNat + 2 < 256) :
    s.fetchWindow =
      [s.mem.read s.pc.toNat, s.mem.read (s.pc.toNat + 1), s.mem.read (s.pc.toNat + 2)] := by
  simp [State.fetchWindow, memRead?_of_lt h, memRead?_of_lt (show s.pc.toNat + 1 < 256 by omega),
    memRead?_of_lt (show s.pc.toNat < 256 by omega)]

/-- The four shapes of the fetch window. -/
theorem fetchWindow_cases (s : State) :
    (256 ≤ s.pc.toNat ∧ s.fetchWindow = []) ∨
    (s.pc.toNat = 255 ∧ s.fetchWindow = [s.mem.read 255]) ∨
    (s.pc.toNat = 254 ∧ s.fetchWindow = [s.mem.read 254, s.mem.read 255]) ∨
    (s.pc.toNat + 2 < 256 ∧ s.fetchWindow =
      [s.mem.read s.pc.toNat, s.mem.read (s.pc.toNat + 1), s.mem.read (s.pc.toNat + 2)]) := by
  rcases Nat.lt_or_ge s.pc.toNat 256 with h | h
  · rcases Nat.lt_or_ge (s.pc.toNat + 2) 256 with h2 | h2
    · exact .inr (.inr (.inr ⟨h2, fetchWindow_whole h2⟩))
    · rcases (show s.pc.toNat = 255 ∨ s.pc.toNat = 254 by omega) with h3 | h3
      · exact .inr (.inl ⟨h3, fetchWindow_last h3⟩)
      · exact .inr (.inr (.inl ⟨h3, fetchWindow_last_two h3⟩))
  · exact .inl ⟨h, fetchWindow_of_ge h⟩

/-- Where one to three given bytes stand at pc, inside memory, the fetch window begins with them. -/
theorem fetchWindow_of_bytes {s : State} {bytes : List Byte} (h1 : 1 ≤ bytes.length) (h3 : bytes.length ≤ 3)
    (hin : s.pc.toNat + bytes.length ≤ 256)
    (hat : ∀ k (hk : k < bytes.length), s.mem.read (s.pc.toNat + k) = bytes[k]) :
    ∃ rest, s.fetchWindow = bytes ++ rest := by
  match bytes, h1, h3, hin, hat with
  | [a], _, _, hin, hat =>
    have ha := hat 0 (by simp)
    simp only [Nat.add_zero, List.getElem_cons_zero, List.length_singleton] at ha hin
    rcases fetchWindow_cases s with ⟨h, -⟩ | ⟨h, e⟩ | ⟨h, e⟩ | ⟨-, e⟩
    · omega
    · exact ⟨[], by rw [e, ← ha, h]; rfl⟩
    · exact ⟨[s.mem.read 255], by rw [e, ← ha, h]; rfl⟩
    · exact ⟨_, by rw [e, ha]; rfl⟩
  | [a, b], _, _, hin, hat =>
    have ha := hat 0 (by simp)
    have hb := hat 1 (by simp)
    simp only [Nat.add_zero, List.getElem_cons_zero, List.getElem_cons_succ, List.length_cons, List.length_nil] at ha hb hin
    rcases fetchWindow_cases s with ⟨h, -⟩ | ⟨h, -⟩ | ⟨h, e⟩ | ⟨-, e⟩
    · omega
    · omega
    · exact ⟨[], by rw [e, ← ha, ← hb, h]; rfl⟩
    · exact ⟨_, by rw [e, ha, hb]; rfl⟩
  | [a, b, c], _, _, hin, hat =>
    have ha := hat 0 (by simp)
    have hb := hat 1 (by simp)
    have hc := hat 2 (by simp)
    simp only [Nat.add_zero, List.getElem_cons_zero, List.getElem_cons_succ, List.length_cons, List.length_nil] at ha hb hc hin
    exact ⟨[], by rw [fetchWindow_whole (by omega), ha, hb, hc]; rfl⟩

end Sys2Proof.Machine
end

