-- ==== Sys2Proof/Laws/Memory.lean ====
section
/-! SUPPORT. The laws of memory: what a read gives after a write, and that every memory operation keeps the canonical
form. -/

namespace Sys2Proof.Machine

@[simp] theorem Memory.read_nil (a : Nat) : Memory.read [] a = unlistedByte := rfl

theorem Memory.read_cons (k : Nat) (v : Byte) (m : Memory) (a : Nat) :
    Memory.read ((k, v) :: m) a = if k = a then v else Memory.read m a := rfl

theorem Memory.read_eraseCell (m : Memory) (a b : Nat) :
    (m.eraseCell a).read b = if b = a then unlistedByte else m.read b := by
  induction m with
  | nil => simp [Memory.eraseCell]
  | cons cell rest ih =>
    obtain ⟨k, v⟩ := cell
    by_cases hk : k = a
    · subst hk
      by_cases hb : b = k
      · subst hb
        simpa [Memory.eraseCell] using ih
      · simp [Memory.eraseCell, ih, hb, Memory.read_cons, Ne.symm hb]
    · by_cases hb : k = b
      · subst hb
        simp [Memory.eraseCell, hk, Memory.read_cons]
      · simp [Memory.eraseCell, hk, Memory.read_cons, ih, hb]

theorem Memory.eraseCell_length_le (m : Memory) (a : Nat) : (m.eraseCell a).length ≤ m.length := by
  induction m with
  | nil => exact Nat.le_refl 0
  | cons cell rest ih =>
    obtain ⟨k, v⟩ := cell
    by_cases hk : k = a <;> simp [Memory.eraseCell, hk] <;> omega

/-- Inserting a cell at an address that memory does not list changes the read of that address only. -/
theorem Memory.read_insertCell (m : Memory) (a b : Nat) (v : Byte) (h : m.eraseCell a = m) :
    (m.insertCell a v).read b = if b = a then v else m.read b := by
  induction m with
  | nil =>
    simp [Memory.insertCell, Memory.read_cons, eq_comm]
  | cons cell rest ih =>
    obtain ⟨k, w⟩ := cell
    have hk : k ≠ a := by
      intro e
      subst e
      have hlen := congrArg List.length h
      have := Memory.eraseCell_length_le rest k
      simp [Memory.eraseCell] at hlen
      omega
    have hr : Memory.eraseCell rest a = rest := by simpa [Memory.eraseCell, hk] using h
    by_cases hlt : a < k
    · by_cases hb : b = a
      · simp [Memory.insertCell, hlt, Memory.read_cons, hb]
      · simp [Memory.insertCell, hlt, Memory.read_cons, hb, Ne.symm hb]
    · by_cases hb : k = b
      · subst hb
        simp [Memory.insertCell, hlt, Memory.read_cons, hk]
      · simp [Memory.insertCell, hlt, Memory.read_cons, hb, ih hr]

theorem Memory.eraseCell_eraseCell (m : Memory) (a : Nat) : (m.eraseCell a).eraseCell a = m.eraseCell a := by
  induction m with
  | nil => rfl
  | cons cell rest ih =>
    obtain ⟨k, v⟩ := cell
    by_cases hk : k = a <;> simp [Memory.eraseCell, hk, ih]

/-- A read gives the byte last written at its address, and what it gave before at every other address
(spec/20_memory.md R38). -/
theorem Memory.read_write (m : Memory) (a b : Nat) (v : Byte) :
    (m.write a v).read b = if b = a then v else m.read b := by
  unfold Memory.write
  by_cases hv : v = unlistedByte
  · simp [hv, Memory.read_eraseCell]
  · rw [if_neg hv, Memory.read_insertCell _ _ _ _ (Memory.eraseCell_eraseCell m a), Memory.read_eraseCell]
    by_cases hb : b = a <;> simp [hb]

@[simp] theorem Memory.read_write_self (m : Memory) (a : Nat) (v : Byte) : (m.write a v).read a = v := by
  simp [Memory.read_write]

theorem Memory.read_write_of_ne (m : Memory) {a b : Nat} (v : Byte) (h : b ≠ a) :
    (m.write a v).read b = m.read b := by
  simp [Memory.read_write, h]

/-! The canonical form -/

theorem Memory.wfFrom_cons (lo k : Nat) (v : Byte) (m : Memory) :
    Memory.wfFrom lo ((k, v) :: m) = true ↔ lo ≤ k ∧ k < memSize ∧ v ≠ unlistedByte ∧ Memory.wfFrom (k + 1) m = true := by
  simp [Memory.wfFrom, and_assoc]

/-- A canonical memory is canonical from any lower address up. -/
theorem Memory.wfFrom_mono {lo hi : Nat} {m : Memory} (h : Memory.wfFrom hi m = true) (hle : lo ≤ hi) :
    Memory.wfFrom lo m = true := by
  cases m with
  | nil => rfl
  | cons cell rest =>
    obtain ⟨k, v⟩ := cell
    rw [Memory.wfFrom_cons] at *
    exact ⟨by omega, h.2⟩

theorem Memory.eraseCell_wfFrom {lo : Nat} {m : Memory} (a : Nat) (h : Memory.wfFrom lo m = true) :
    Memory.wfFrom lo (m.eraseCell a) = true := by
  induction m generalizing lo with
  | nil => rfl
  | cons cell rest ih =>
    obtain ⟨k, v⟩ := cell
    rw [Memory.wfFrom_cons] at h
    obtain ⟨hlo, hlt, hv, hrest⟩ := h
    by_cases hk : k = a
    · simpa [Memory.eraseCell, hk] using Memory.wfFrom_mono (ih hrest) (by omega)
    · simp only [Memory.eraseCell, hk, if_false]
      exact (Memory.wfFrom_cons ..).2 ⟨hlo, hlt, hv, ih hrest⟩

theorem Memory.insertCell_wfFrom {lo a : Nat} {m : Memory} {v : Byte} (h : Memory.wfFrom lo m = true)
    (hm : m.eraseCell a = m) (hlo : lo ≤ a) (ha : a < memSize) (hv : v ≠ unlistedByte) :
    Memory.wfFrom lo (m.insertCell a v) = true := by
  induction m generalizing lo with
  | nil => exact (Memory.wfFrom_cons ..).2 ⟨hlo, ha, hv, rfl⟩
  | cons cell rest ih =>
    obtain ⟨k, w⟩ := cell
    obtain ⟨hk, hlt, hw, hrest⟩ := (Memory.wfFrom_cons ..).1 h
    by_cases hak : a < k
    · simp only [Memory.insertCell, hak, if_true]
      exact (Memory.wfFrom_cons ..).2 ⟨hlo, ha, hv, (Memory.wfFrom_cons ..).2 ⟨hak, hlt, hw, hrest⟩⟩
    · have hne : k ≠ a := by
        intro e
        subst e
        have h1 : Memory.read ((k, w) :: rest) k = w := by simp [Memory.read_cons]
        rw [← hm, Memory.read_eraseCell] at h1
        simp at h1
        exact hw h1.symm
      have hr : Memory.eraseCell rest a = rest := by simpa [Memory.eraseCell, hne] using hm
      simp only [Memory.insertCell, hak, if_false]
      exact (Memory.wfFrom_cons ..).2 ⟨hk, hlt, hw, ih hrest hr (by omega)⟩

/-- A store inside memory keeps the canonical form. -/
theorem Memory.write_wf {m : Memory} {a : Nat} (v : Byte) (h : m.wf = true) (ha : a < memSize) :
    (m.write a v).wf = true := by
  unfold Memory.write Memory.wf at *
  by_cases hv : v = unlistedByte
  · simpa [hv] using Memory.eraseCell_wfFrom a h
  · simpa [hv] using
      Memory.insertCell_wfFrom (Memory.eraseCell_wfFrom a h) (Memory.eraseCell_eraseCell m a) (Nat.zero_le a) ha hv

/-- A store through the machine's own operation keeps the canonical form: its address is 8 bits. -/
theorem storeByte_wf {s : State} (a v : Byte) (h : s.mem.wf = true) : (s.storeByte a v).mem.wf = true :=
  Memory.write_wf v h a.isLt

theorem pushByte_wf {s : State} (v : State → Byte) (h : s.mem.wf = true) : (pushByte v s).mem.wf = true :=
  storeByte_wf _ _ h

/-- The cells of an image are in canonical form. -/
theorem imageCells_wf (image : Byte → Byte) {n : Nat} (h : n ≤ memSize) : (imageCells image n).wf = true := by
  induction n with
  | zero => rfl
  | succ n ih => exact Memory.write_wf _ (ih (by omega)) (by omega)

theorem load_wf (s : State) (image : Byte → Byte) : (s.load image).mem.wf = true := imageCells_wf image (Nat.le_refl _)

/-- The cells of an image read as the image, and as nothing above it. -/
theorem imageCells_read (image : Byte → Byte) (n a : Nat) :
    (imageCells image n).read a = if a < n then image (BitVec.ofNat 8 a) else unlistedByte := by
  induction n with
  | zero => simp [imageCells]
  | succ n ih =>
    rw [imageCells, Memory.read_write, ih]
    by_cases ha : a = n
    · simp [ha]
    · by_cases hlt : a < n
      · simp [ha, hlt, show a < n + 1 by omega]
      · simp [ha, hlt, show ¬ a < n + 1 by omega]

/-- Storing bytes at rising addresses inside memory keeps the canonical form. -/
theorem writeBytes_wf {m : Memory} {a : Nat} {bytes : List Byte} (h : m.wf = true) (ha : a + bytes.length ≤ memSize) :
    (State.placeBytes.writeBytes m a bytes).wf = true := by
  induction bytes generalizing m a with
  | nil => exact h
  | cons v rest ih =>
    simp only [List.length_cons] at ha
    exact ih (Memory.write_wf v h (by omega)) (by omega)

end Sys2Proof.Machine
end

