-- ==== Sys2Proof/Laws/PerInstr.lean ====
section
/-! SUPPORT. Facts about every instruction as syntax, one lemma per constructor. -/

/-- The encoding of an instruction has the length the opcode table gives it, one to three bytes, and starts with its
opcode (spec/30_encoding.md R50, R55). -/
def Sys2Proof.Laws.EncodingLength.Statement (i : Sys2Proof.Instr) : Prop :=
  (Sys2Proof.encode i).length = i.length ∧ 1 ≤ i.length ∧ i.length ≤ 3 ∧ (Sys2Proof.encode i).head? = some i.opcode

/-- The opcode of an instruction stands in the opcode table, in a row whose format rebuilds the instruction from its
operand bytes (spec/30_encoding.md R51, R55). -/
def Sys2Proof.Laws.OpcodeListed.Statement (i : Sys2Proof.Instr) : Prop :=
  ∃ format, Sys2Proof.opcodeTable.lookup i.opcode = some format ∧
    Sys2Proof.decodeOperands i.opcode format i.operandBytes = .ok (i, [])

namespace Sys2Proof.Laws

theorem EncodingLength.ldi (ra imm : Byte) : EncodingLength.Statement (.ldi ra imm) := ⟨rfl, by simp [Instr.length], by simp [Instr.length], rfl⟩
theorem EncodingLength.prn (ra : Byte) : EncodingLength.Statement (.prn ra) := ⟨rfl, by simp [Instr.length], by simp [Instr.length], rfl⟩
theorem EncodingLength.mul (ra rb : Byte) : EncodingLength.Statement (.mul ra rb) := ⟨rfl, by simp [Instr.length], by simp [Instr.length], rfl⟩
theorem EncodingLength.hlt : EncodingLength.Statement .hlt := ⟨rfl, by simp [Instr.length], by simp [Instr.length], rfl⟩
theorem EncodingLength.push (ra : Byte) : EncodingLength.Statement (.push ra) := ⟨rfl, by simp [Instr.length], by simp [Instr.length], rfl⟩
theorem EncodingLength.pop (ra : Byte) : EncodingLength.Statement (.pop ra) := ⟨rfl, by simp [Instr.length], by simp [Instr.length], rfl⟩
theorem EncodingLength.ret : EncodingLength.Statement .ret := ⟨rfl, by simp [Instr.length], by simp [Instr.length], rfl⟩
theorem EncodingLength.call (ra : Byte) : EncodingLength.Statement (.call ra) := ⟨rfl, by simp [Instr.length], by simp [Instr.length], rfl⟩
theorem EncodingLength.cmp (ra rb : Byte) : EncodingLength.Statement (.cmp ra rb) := ⟨rfl, by simp [Instr.length], by simp [Instr.length], rfl⟩
theorem EncodingLength.jeq (ra : Byte) : EncodingLength.Statement (.jeq ra) := ⟨rfl, by simp [Instr.length], by simp [Instr.length], rfl⟩
theorem EncodingLength.jne (ra : Byte) : EncodingLength.Statement (.jne ra) := ⟨rfl, by simp [Instr.length], by simp [Instr.length], rfl⟩
theorem EncodingLength.jmp (ra : Byte) : EncodingLength.Statement (.jmp ra) := ⟨rfl, by simp [Instr.length], by simp [Instr.length], rfl⟩
theorem EncodingLength.and (ra rb : Byte) : EncodingLength.Statement (.and ra rb) := ⟨rfl, by simp [Instr.length], by simp [Instr.length], rfl⟩
theorem EncodingLength.or (ra rb : Byte) : EncodingLength.Statement (.or ra rb) := ⟨rfl, by simp [Instr.length], by simp [Instr.length], rfl⟩
theorem EncodingLength.xor (ra rb : Byte) : EncodingLength.Statement (.xor ra rb) := ⟨rfl, by simp [Instr.length], by simp [Instr.length], rfl⟩
theorem EncodingLength.not (ra : Byte) : EncodingLength.Statement (.not ra) := ⟨rfl, by simp [Instr.length], by simp [Instr.length], rfl⟩
theorem EncodingLength.shl (ra rb : Byte) : EncodingLength.Statement (.shl ra rb) := ⟨rfl, by simp [Instr.length], by simp [Instr.length], rfl⟩
theorem EncodingLength.shr (ra rb : Byte) : EncodingLength.Statement (.shr ra rb) := ⟨rfl, by simp [Instr.length], by simp [Instr.length], rfl⟩
theorem EncodingLength.mod (ra rb : Byte) : EncodingLength.Statement (.mod ra rb) := ⟨rfl, by simp [Instr.length], by simp [Instr.length], rfl⟩

theorem OpcodeListed.ldi (ra imm : Byte) : OpcodeListed.Statement (.ldi ra imm) := ⟨_, rfl, rfl⟩
theorem OpcodeListed.prn (ra : Byte) : OpcodeListed.Statement (.prn ra) := ⟨_, rfl, rfl⟩
theorem OpcodeListed.mul (ra rb : Byte) : OpcodeListed.Statement (.mul ra rb) := ⟨_, rfl, rfl⟩
theorem OpcodeListed.hlt : OpcodeListed.Statement .hlt := ⟨_, rfl, rfl⟩
theorem OpcodeListed.push (ra : Byte) : OpcodeListed.Statement (.push ra) := ⟨_, rfl, rfl⟩
theorem OpcodeListed.pop (ra : Byte) : OpcodeListed.Statement (.pop ra) := ⟨_, rfl, rfl⟩
theorem OpcodeListed.ret : OpcodeListed.Statement .ret := ⟨_, rfl, rfl⟩
theorem OpcodeListed.call (ra : Byte) : OpcodeListed.Statement (.call ra) := ⟨_, rfl, rfl⟩
theorem OpcodeListed.cmp (ra rb : Byte) : OpcodeListed.Statement (.cmp ra rb) := ⟨_, rfl, rfl⟩
theorem OpcodeListed.jeq (ra : Byte) : OpcodeListed.Statement (.jeq ra) := ⟨_, rfl, rfl⟩
theorem OpcodeListed.jne (ra : Byte) : OpcodeListed.Statement (.jne ra) := ⟨_, rfl, rfl⟩
theorem OpcodeListed.jmp (ra : Byte) : OpcodeListed.Statement (.jmp ra) := ⟨_, rfl, rfl⟩
theorem OpcodeListed.and (ra rb : Byte) : OpcodeListed.Statement (.and ra rb) := ⟨_, rfl, rfl⟩
theorem OpcodeListed.or (ra rb : Byte) : OpcodeListed.Statement (.or ra rb) := ⟨_, rfl, rfl⟩
theorem OpcodeListed.xor (ra rb : Byte) : OpcodeListed.Statement (.xor ra rb) := ⟨_, rfl, rfl⟩
theorem OpcodeListed.not (ra : Byte) : OpcodeListed.Statement (.not ra) := ⟨_, rfl, rfl⟩
theorem OpcodeListed.shl (ra rb : Byte) : OpcodeListed.Statement (.shl ra rb) := ⟨_, rfl, rfl⟩
theorem OpcodeListed.shr (ra rb : Byte) : OpcodeListed.Statement (.shr ra rb) := ⟨_, rfl, rfl⟩
theorem OpcodeListed.mod (ra rb : Byte) : OpcodeListed.Statement (.mod ra rb) := ⟨_, rfl, rfl⟩

end Sys2Proof.Laws
end

