-- ==== Sys2Proof/Tests/Slice0.lean ====
section
/-! SUPPORT. Tests, with expected values from spec/95_test_vectors.md and the encodings of spec/30_encoding.md R55, and
the witnesses: for every obligation with hypotheses, states and operands that meet them. -/

namespace Sys2Proof.Tests

open Sys2Proof Sys2Proof.Machine

/-! Helpers -/

/-- A launched machine with `pc` and the bytes from `pc` up given, all other memory zero. -/
def machine (pc : Pc) (bytes : List Byte) : State :=
  { State.reset.start with pc := pc, mem := State.placeBytes.writeBytes [] pc.toNat bytes }

/-- The next state of an answer, if it is one. -/
def after : StepResult → Option State
  | .next t => some t
  | .fault _ => none
  | .refused _ => none

/-- What a decoder answered, if an instruction. -/
def after? : Except DecodeError (Instr × List Byte) → Option (Instr × List Byte)
  | .ok a => some a
  | .error _ => none

/-- Why a decoder answered no instruction. -/
def decodeError? : Except DecodeError (Instr × List Byte) → Option DecodeError
  | .ok _ => none
  | .error e => some e

/-- One view of the state after one step. -/
def seen {α : Type} (view : State → α) (s : State) : Option α := (after (step s)).map view

/-- A record of MemoryBounds, and so on, as spec/95_test_vectors.md writes them: kind(pc, opcode, info). -/
def record (kind : FaultKind) (pc : Pc) (opcode : Option Byte) (info : Nat) : Option FaultRecord :=
  some { kind := kind, pc := pc, opcode := opcode, info := info }

/-- The fault, and whether all else is as before. -/
def faultSeen (s : State) : Option (Option FaultRecord × Bool) :=
  seen (fun t => (t.fault, decide (t = { s with fault := t.fault }))) s

/-! Well-formedness: an ill-formed term for each check -/

theorem test_wf_refuses_prn_register : WellFormed (.prn 8) = false := by decide
theorem test_wf_refuses_ldi_register : WellFormed (.ldi 8 0) = false := by decide
theorem test_wf_refuses_first_register : WellFormed (.mul 8 0) = false := by decide
theorem test_wf_refuses_second_register : WellFormed (.mul 0 0xFF) = false := by decide
theorem test_wf_accepts_any_immediate : WellFormed (.ldi 7 0xFF) = true := by decide
theorem test_wf_accepts_no_operand : WellFormed .ret = true := by decide

/-! Decoding: words written bit by bit from spec/30_encoding.md R50 and R55 -/

theorem test_decode_ldi : after? (decode [0b10000010, 0b00000101, 0b00000010, 0xFF]) = some (.ldi 5 2, [0xFF]) := by decide
theorem test_decode_prn : after? (decode [0b01000111, 0b00000101, 0xFF]) = some (.prn 5, [0xFF]) := by decide
theorem test_decode_mul : after? (decode [0b10100010, 0b00000101, 0b00000010, 0xFF]) = some (.mul 5 2, [0xFF]) := by decide
theorem test_decode_hlt : after? (decode [0b00000001, 0xFF]) = some (.hlt, [0xFF]) := by decide
theorem test_decode_push : after? (decode [0b01000101, 0b00000101, 0xFF]) = some (.push 5, [0xFF]) := by decide
theorem test_decode_pop : after? (decode [0b01000110, 0b00000101, 0xFF]) = some (.pop 5, [0xFF]) := by decide
theorem test_decode_ret : after? (decode [0b00010001, 0xFF]) = some (.ret, [0xFF]) := by decide
theorem test_decode_call : after? (decode [0b01010000, 0b00000101, 0xFF]) = some (.call 5, [0xFF]) := by decide
theorem test_decode_cmp : after? (decode [0b10100111, 0b00000101, 0b00000010, 0xFF]) = some (.cmp 5 2, [0xFF]) := by decide
theorem test_decode_jeq : after? (decode [0b01010101, 0b00000101, 0xFF]) = some (.jeq 5, [0xFF]) := by decide
theorem test_decode_jne : after? (decode [0b01010110, 0b00000101, 0xFF]) = some (.jne 5, [0xFF]) := by decide
theorem test_decode_jmp : after? (decode [0b01010100, 0b00000101, 0xFF]) = some (.jmp 5, [0xFF]) := by decide
theorem test_decode_and : after? (decode [0b10101000, 0b00000101, 0b00000010, 0xFF]) = some (.and 5 2, [0xFF]) := by decide
theorem test_decode_or : after? (decode [0b10101010, 0b00000101, 0b00000010, 0xFF]) = some (.or 5 2, [0xFF]) := by decide
theorem test_decode_xor : after? (decode [0b10101011, 0b00000101, 0b00000010, 0xFF]) = some (.xor 5 2, [0xFF]) := by decide
theorem test_decode_not : after? (decode [0b01101001, 0b00000101, 0xFF]) = some (.not 5, [0xFF]) := by decide
theorem test_decode_shl : after? (decode [0b10101100, 0b00000101, 0b00000010, 0xFF]) = some (.shl 5 2, [0xFF]) := by decide
theorem test_decode_shr : after? (decode [0b10101101, 0b00000101, 0b00000010, 0xFF]) = some (.shr 5 2, [0xFF]) := by decide
theorem test_decode_mod : after? (decode [0b10100100, 0b00000101, 0b00000010, 0xFF]) = some (.mod 5 2, [0xFF]) := by decide
theorem test_decode_unknown_add : after? (decode [0b10100000, 0, 1]) = none := by decide
theorem test_decode_error_add : decodeError? (decode [0xA0, 0, 1]) = some (.unknownOpcode 0xA0) := by decide
theorem test_decode_error_first_operand : decodeError? (decode [0x82]) = some (.missingOperand 0x82 1) := by decide
theorem test_decode_error_second_operand : decodeError? (decode [0x82, 0]) = some (.missingOperand 0x82 2) := by decide
theorem test_table_word_ldi : decodeTableWord 24 0x090182 = some (.ldi 1 9) := by decide
theorem test_table_word_bits_above_are_zero : decodeTableWord 8 0xFFFF82 = some (.ldi 0 0) := by decide
theorem test_table_word_unknown : decodeTableWord 8 0 = none := by decide

/-! Reset and launch (spec/10_state.md R22) -/

theorem test_reset_registers : State.reset.regs.toList = [0, 0, 0, 0, 0, 0, 0, 0xF4] := by decide
theorem test_reset_meets_invariant : State.reset.Inv := by decide
theorem test_launched_machine_meets_invariant : (machine 0 [0x82, 0, 8]).Inv := by decide

/-! One step (spec/95_test_vectors.md, part 2; each row's vector group in its heading) -/
/-- A machine with an instruction of registers 0 and 1 at address 0, their values `a` and `b`, and L set. -/
def pair (opcode a b : Byte) : State :=
  ((((machine 0 [opcode, 0, 1]).setReg 0 a).setReg 1 b).setFlags { L := true, G := false, E := false })

/-- `x0`, `x1`, pc and L, G, E. -/
def pairView (t : State) : Byte × Byte × Pc × List Bool :=
  (t.reg 0, t.reg 1, t.pc, [t.flags.L, t.flags.G, t.flags.E])

-- V-ALU
theorem test_mul_example : seen pairView (pair 0xA2 0x08 0x09) = some (0x48, 0x09, 3, [true, false, false]) := by decide
theorem test_mul_keeps_low_byte : seen pairView (pair 0xA2 0xFF 0xFF) = some (0x01, 0xFF, 3, [true, false, false]) := by decide
theorem test_mod_remainder : seen pairView (pair 0xA4 0x11 0x05) = some (0x02, 0x05, 3, [true, false, false]) := by decide
theorem test_mod_by_zero : faultSeen (pair 0xA4 0x07 0x00) = some (record .divisionByZero 0 (some 0xA4) 1, true) := by decide
theorem test_and : seen pairView (pair 0xA8 0xF0 0x3C) = some (0x30, 0x3C, 3, [true, false, false]) := by decide
theorem test_or : seen pairView (pair 0xAA 0xF0 0x3C) = some (0xFC, 0x3C, 3, [true, false, false]) := by decide
theorem test_xor : seen pairView (pair 0xAB 0xF0 0x3C) = some (0xCC, 0x3C, 3, [true, false, false]) := by decide
theorem test_shl_loses_bit_7 : seen pairView (pair 0xAC 0x81 0x01) = some (0x02, 0x01, 3, [true, false, false]) := by decide
theorem test_shl_count_255 : seen pairView (pair 0xAC 0xFF 0xFF) = some (0x00, 0xFF, 3, [true, false, false]) := by decide
theorem test_shr_is_logical : seen pairView (pair 0xAD 0x81 0x01) = some (0x40, 0x01, 3, [true, false, false]) := by decide
theorem test_shr_count_8 : seen pairView (pair 0xAD 0x80 0x08) = some (0x00, 0x08, 3, [true, false, false]) := by decide
theorem test_cmp_is_unsigned : seen pairView (pair 0xA7 0x80 0x7F) = some (0x80, 0x7F, 3, [false, true, false]) := by decide
theorem test_cmp_equal : seen pairView (pair 0xA7 0x04 0x04) = some (0x04, 0x04, 3, [false, false, true]) := by decide
theorem test_not : seen (fun t => (t.reg 3, t.pc)) ((machine 0 [0x69, 3]).setReg 3 0xA5) = some (0x5A, 2) := by decide
theorem test_not_stack_pointer : seen (fun t => t.reg 7) (machine 0 [0x69, 7]) = some 0x0B := by decide
theorem test_alu_add : (alu .add 0xC8 0x64).result = some 0x2C := by decide

-- V-LPH
theorem test_ldi : seen (fun t => (t.reg 5, t.pc)) (machine 0x010 [0x82, 5, 0xFF]) = some (0xFF, 0x013) := by decide
theorem test_ldi_ends_at_the_last_cell :
    seen (fun t => (t.reg 0, t.pc, t.fault)) (machine 0x0FD [0x82, 0, 7]) = some (7, 0x100, none) := by decide
theorem test_prn : seen (fun t => (t.out, t.rendered, t.pc)) ((machine 0 [0x47, 0]).setReg 0 0x48) =
    some ([72], [['7', '2']], 2) := by decide
theorem test_hlt_in_the_last_cell :
    seen (fun t => (t.running, t.pc, t.fault)) (machine 0x0FF [0x01]) = some (false, 0x0FF, none) := by decide

-- V-STK
theorem test_push : seen (fun t => (t.reg 7, t.mem.read 0xF3, t.pc)) ((machine 0 [0x45, 2]).setReg 2 0xAB) =
    some (0xF3, 0xAB, 2) := by decide
theorem test_push_stack_pointer :
    seen (fun t => (t.reg 7, t.mem.read 0xF3, t.pc)) (machine 0 [0x45, 7]) = some (0xF3, 0xF3, 2) := by decide
theorem test_pop_wraps : seen (fun t => (t.reg 4, t.reg 7, t.mem.read 0xFF))
    (((machine 0 [0x46, 4]).setReg 7 0xFF).storeByte 0xFF 0x77) = some (0x77, 0x00, 0x77) := by decide
theorem test_pop_stack_pointer : seen (fun t => (t.reg 7, t.pc))
    (((machine 0 [0x46, 7]).setReg 7 0xF3).storeByte 0xF3 0x20) = some (0x21, 2) := by decide

-- V-CTL
theorem test_jmp : seen State.pc ((machine 0x010 [0x54, 1]).setReg 1 0x40) = some 0x040 := by decide
theorem test_jeq_before_any_cmp : seen State.pc ((machine 0x020 [0x55, 2]).setReg 2 0x30) = some 0x022 := by decide
theorem test_jeq_taken :
    seen State.pc (((machine 0x020 [0x55, 2]).setReg 2 0x30).setFlags { L := false, G := false, E := true }) =
      some 0x030 := by decide
theorem test_jne_before_any_cmp : seen State.pc ((machine 0x020 [0x56, 2]).setReg 2 0x30) = some 0x030 := by decide
theorem test_jne_not_taken :
    seen State.pc (((machine 0x020 [0x56, 2]).setReg 2 0x30).setFlags { L := false, G := false, E := true }) =
      some 0x022 := by decide
theorem test_call_stack_pointer : seen (fun t => (t.reg 7, t.mem.read 0xF3, t.pc)) (machine 0x006 [0x50, 7]) =
    some (0xF3, 0x08, 0x0F3) := by decide
theorem test_call_at_254 :
    faultSeen ((machine 0x0FE [0x50, 1]).setReg 1 0x30) = some (record .memoryBounds 0x0FE (some 0x50) 0x100, true) := by
  decide
theorem test_ret : seen (fun t => (t.pc, t.reg 7)) (((machine 0x016 [0x11]).setReg 7 0xF3).storeByte 0xF3 0x08) =
    some (0x008, 0xF4) := by decide
theorem test_ret_empty_stack : seen (fun t => (t.pc, t.reg 7)) (machine 0x016 [0x11]) = some (0x000, 0xF5) := by decide

-- V-FLT
theorem test_unfilled_memory : faultSeen (machine 0 []) = some (record .unknownOpcode 0 (some 0) 0, true) := by decide
theorem test_unknown_precedes_operand_fetch :
    faultSeen (machine 0x0FF [0xFF]) = some (record .unknownOpcode 0x0FF (some 0xFF) 0xFF, true) := by decide
theorem test_first_missing_operand :
    faultSeen (machine 0x0FF [0x82]) = some (record .memoryBounds 0x0FF (some 0x82) 0x100, true) := by decide
theorem test_fetch_at_256 : faultSeen (machine 0x100 []) = some (record .memoryBounds 0x100 none 0x100, true) := by decide
theorem test_first_register_is_reported :
    faultSeen (machine 0 [0xA2, 0xFF, 0x08]) = some (record .registerBounds 0 (some 0xA2) 0xFF, true) := by decide
theorem test_register_precedes_division :
    faultSeen (machine 0 [0xA4, 9, 1]) = some (record .registerBounds 0 (some 0xA4) 9, true) := by decide
theorem test_untaken_jump_is_checked :
    faultSeen (machine 0 [0x55, 9]) = some (record .registerBounds 0 (some 0x55) 9, true) := by decide
theorem test_word_runs_after_reset :
    seen (fun t => (t.reg 0, t.pc)) (State.reset.withFetchWord 24 0x080082) = some (8, 3) := by decide
theorem test_stall : stepWith { unknownOpcodePolicy := .stall } (machine 0 [0xA0, 0, 1]) = .next (machine 0 [0xA0, 0, 1]) :=
  rfl

/-! Witnesses: one for each obligation with hypotheses, at a boundary of each clause -/

theorem witness_PlacedWordIsTheNextInstruction : decodeTableWord 24 0x080082 = some (.ldi 0 8) := by decide

theorem witness_ImageBytesStartAtAddressZero :
    (List.replicate 256 (1 : Byte)).length ≤ 256 ∧ 256 < (List.replicate 257 (1 : Byte)).length :=
  ⟨by rw [List.length_replicate], by rw [List.length_replicate]; decide⟩

theorem witness_StoppedMachineKeepsItsState_not_running : State.reset.running = false ∨ State.reset.fault ≠ none :=
  .inl (by decide)

/-- A machine that has faulted: launched on empty memory, after one step. -/
def faulted : State := (machine 0 []).latchFault ⟨.unknownOpcode, 0, some 0, 0⟩

theorem witness_StoppedMachineKeepsItsState_faulted : faulted.running = false ∨ faulted.fault ≠ none :=
  .inr (by decide)

/-- LDI R0, 7 in the last three cells. -/
def ldiAtTheEnd : State := machine 0x0FD [0x82, 0, 7]

theorem witness_StepRunsTheInstructionAtPc :
    ldiAtTheEnd.running = true ∧ ldiAtTheEnd.fault = none ∧
    ldiAtTheEnd.pc.toNat + (encode (.ldi 0 7)).length ≤ 256 ∧
    ∀ k (hk : k < (encode (.ldi 0 7)).length), ldiAtTheEnd.mem.read (ldiAtTheEnd.pc.toNat + k) = (encode (.ldi 0 7))[k] := by
  decide

theorem witness_StepRunsTheInstructionAtPc_ill_formed :
    (machine 0 [0xA2, 8, 9]).running = true ∧ (machine 0 [0xA2, 8, 9]).fault = none ∧
    (machine 0 [0xA2, 8, 9]).pc.toNat + (encode (.mul 8 9)).length ≤ 256 ∧
    ∀ k (hk : k < (encode (.mul 8 9)).length), (machine 0 [0xA2, 8, 9]).mem.read (0 + k) = (encode (.mul 8 9))[k] := by
  decide

theorem witness_FetchBeyondMemoryFaults_256 :
    (machine 0x100 []).running = true ∧ (machine 0x100 []).fault = none ∧ 256 ≤ (machine 0x100 []).pc.toNat := by decide

theorem witness_FetchBeyondMemoryFaults_255 :
    (machine 0x0FF [1]).running = true ∧ (machine 0x0FF [1]).fault = none ∧ (machine 0x0FF [1]).pc.toNat < 256 := by decide

theorem witness_UnknownOpcodeFollowsThePolicy :
    (machine 0x0FF [0xFF]).running = true ∧ (machine 0x0FF [0xFF]).fault = none ∧ (machine 0x0FF [0xFF]).pc.toNat < 256 ∧
    (machine 0x0FF [0xFF]).mem.read (machine 0x0FF [0xFF]).pc.toNat = 0xFF ∧ (opcodeTable.lookup 0xFF).isNone = true ∧
    ({ unknownOpcodePolicy := .fault } : Config).unknownOpcodePolicy = .fault ∧
    ({ unknownOpcodePolicy := .stall } : Config).unknownOpcodePolicy = .stall := by decide

theorem witness_OperandFetchReportsTheFirstMissingByte_first :
    (machine 0x0FF [0x82]).running = true ∧ (machine 0x0FF [0x82]).fault = none ∧ (machine 0x0FF [0x82]).pc.toNat < 256 ∧
    (machine 0x0FF [0x82]).mem.read (machine 0x0FF [0x82]).pc.toNat = (Instr.ldi 0 0).opcode ∧
    2 ≤ (Instr.ldi 0 0).length ∧ 256 ≤ (machine 0x0FF [0x82]).pc.toNat + 1 := by decide

theorem witness_OperandFetchReportsTheFirstMissingByte_second :
    (machine 0x0FE [0x82]).running = true ∧ (machine 0x0FE [0x82]).fault = none ∧ (machine 0x0FE [0x82]).pc.toNat < 256 ∧
    (machine 0x0FE [0x82]).mem.read (machine 0x0FE [0x82]).pc.toNat = (Instr.ldi 0 0).opcode ∧
    (Instr.ldi 0 0).length = 3 ∧ (machine 0x0FE [0x82]).pc.toNat + 1 < 256 ∧
    256 ≤ (machine 0x0FE [0x82]).pc.toNat + 2 := by decide

theorem witness_OperandFetchReportsTheFirstMissingByte_none_missing :
    ldiAtTheEnd.running = true ∧ ldiAtTheEnd.fault = none ∧ ldiAtTheEnd.pc.toNat < 256 ∧
    ldiAtTheEnd.mem.read ldiAtTheEnd.pc.toNat = (Instr.ldi 0 0).opcode ∧
    ldiAtTheEnd.pc.toNat + (Instr.ldi 0 0).length ≤ 256 := by decide

theorem witness_PcPassesTheLastCellOnlyInSequence :
    ldiAtTheEnd.pc.toNat < 256 ∧ ∃ t, stepWith config ldiAtTheEnd = .next t ∧ 256 ≤ t.pc.toNat :=
  ⟨by decide, _, rfl, by decide⟩

theorem witness_RegisterOperandOutOfRangeFaults_first :
    8 ≤ (8 : Byte).toNat ∧ 8 ≤ (0xFF : Byte).toNat ∧ Instr.not ∈ [Instr.prn, Instr.push, Instr.pop, Instr.call,
      Instr.jmp, Instr.jeq, Instr.jne, Instr.not] ∧
    Instr.mod ∈ [Instr.mul, Instr.cmp, Instr.and, Instr.or, Instr.xor, Instr.shl, Instr.shr, Instr.mod] := by simp

theorem witness_RegisterOperandOutOfRangeFaults_second : (7 : Byte).toNat < 8 ∧ 8 ≤ (8 : Byte).toNat := by decide

theorem witness_FaultRecordNamesItsCause_divisionByZero :
    (pair 0xA4 7 0).Inv ∧ (pair 0xA4 7 0).fault = none ∧
    ∃ t r, stepWith config (pair 0xA4 7 0) = .next t ∧ t.fault = some r ∧ r.kind = .divisionByZero :=
  ⟨by decide, by decide, _, _, rfl, rfl, rfl⟩

theorem witness_FaultRecordNamesItsCause_unknownOpcode :
    (machine 0 []).Inv ∧ (machine 0 []).fault = none ∧
    ∃ t r, stepWith config (machine 0 []) = .next t ∧ t.fault = some r ∧ r.kind = .unknownOpcode :=
  ⟨by decide, by decide, _, _, rfl, rfl, rfl⟩

theorem witness_FaultRecordNamesItsCause_memoryBounds_fetch :
    (machine 0x100 []).Inv ∧ (machine 0x100 []).fault = none ∧
    ∃ t r, stepWith config (machine 0x100 []) = .next t ∧ t.fault = some r ∧ r.kind = .memoryBounds :=
  ⟨by decide, by decide, _, _, rfl, rfl, rfl⟩

theorem witness_FaultRecordNamesItsCause_memoryBounds_operand_at_255 :
    (machine 0x0FF [0x47]).Inv ∧ (machine 0x0FF [0x47]).fault = none ∧
    ∃ t r, stepWith config (machine 0x0FF [0x47]) = .next t ∧ t.fault = some r ∧ r.kind = .memoryBounds :=
  ⟨by decide, by decide, _, _, rfl, rfl, rfl⟩

theorem witness_FaultRecordNamesItsCause_memoryBounds_operand_at_254 :
    (machine 0x0FE [0x82]).Inv ∧ (machine 0x0FE [0x82]).fault = none ∧
    ∃ t r, stepWith config (machine 0x0FE [0x82]) = .next t ∧ t.fault = some r ∧ r.kind = .memoryBounds :=
  ⟨by decide, by decide, _, _, rfl, rfl, rfl⟩

theorem witness_FaultRecordNamesItsCause_memoryBounds_call :
    (machine 0x0FE [0x50, 1]).Inv ∧ (machine 0x0FE [0x50, 1]).fault = none ∧
    ∃ t r, stepWith config (machine 0x0FE [0x50, 1]) = .next t ∧ t.fault = some r ∧ r.kind = .memoryBounds :=
  ⟨by decide, by decide, _, _, rfl, rfl, rfl⟩

theorem witness_FaultRecordNamesItsCause_registerBounds :
    (machine 0 [0x45, 8]).Inv ∧ (machine 0 [0x45, 8]).fault = none ∧
    ∃ t r, stepWith config (machine 0 [0x45, 8]) = .next t ∧ t.fault = some r ∧ r.kind = .registerBounds :=
  ⟨by decide, by decide, _, _, rfl, rfl, rfl⟩

theorem witness_RunStopsOnlyByHltOrPreciseFault_halt :
    (machine 0x0FF [0x01]).active = true ∧
    ∃ t, stepWith config (machine 0x0FF [0x01]) = .next t ∧ t.active = false ∧ t.NormalEnd :=
  ⟨by decide, _, rfl, by decide, by decide⟩

theorem witness_RunStopsOnlyByHltOrPreciseFault_fault :
    (machine 0 []).active = true ∧ ∃ t, stepWith config (machine 0 []) = .next t ∧ t.active = false ∧ ¬ t.NormalEnd :=
  ⟨by decide, _, rfl, by decide, by decide⟩

theorem witness_StepKeepsTheInvariant :
    ldiAtTheEnd.Inv ∧ ∃ t, step ldiAtTheEnd = .next t ∧ t ≠ ldiAtTheEnd := ⟨by decide, _, rfl, by decide⟩

theorem witness_CanonicalMemoriesThatReadEqualAreEqual :
    Memory.wf [(0, 1), (255, 2)] = true ∧
    Memory.wf (Memory.write (Memory.write (Memory.write [] 255 2) 9 0) 0 1) = true ∧
    ∀ a, a < 256 → Memory.read [(0, 1), (255, 2)] a =
      Memory.read (Memory.write (Memory.write (Memory.write [] 255 2) 9 0) 0 1) a :=
  ⟨by decide, by decide, fun _ _ => rfl⟩

theorem witness_OnlyPushAndCallWriteMemory :
    ∃ t, stepWith config (machine 0x006 [0x50, 1]) = .next t ∧ t.mem.read 0xF3 ≠ (machine 0x006 [0x50, 1]).mem.read 0xF3 :=
  ⟨_, rfl, by decide⟩

theorem witness_RegistersChangeOnlyAsDestinationOrStackPointer_destination :
    ∃ t, stepWith config ldiAtTheEnd = .next t ∧ t.reg 0 ≠ ldiAtTheEnd.reg 0 := ⟨_, rfl, by decide⟩

theorem witness_RegistersChangeOnlyAsDestinationOrStackPointer_stack_pointer :
    ∃ t, stepWith config (machine 0 [0x11]) = .next t ∧ t.reg 7 ≠ (machine 0 [0x11]).reg 7 := ⟨_, rfl, by decide⟩

theorem witness_OnlyCmpWritesFlags :
    ∃ t, stepWith config (pair 0xA7 4 4) = .next t ∧ t.flags ≠ (pair 0xA7 4 4).flags := ⟨_, rfl, by decide⟩

theorem witness_NothingReadsGreaterOrLess :
    (Flags.mk false true false).E = (pair 0xA2 8 9).flags.E ∧ Flags.mk false true false ≠ (pair 0xA2 8 9).flags ∧
    ∃ t, stepWith config (pair 0xA2 8 9) = .next t := ⟨by decide, by decide, _, rfl⟩

theorem witness_FlagsStayMutuallyExclusive :
    (∃ t, stepWith config (pair 0xA7 4 4) = .next t) ∧ (machine 0 []).flags.atMostOne = true ∧
    (pair 0xA7 4 4).flags.exactlyOne = true ∧ (Flags.mk false true false).atMostOne = true :=
  ⟨⟨_, rfl⟩, by decide, by decide, by decide⟩

theorem witness_OnlyHltClearsRunning :
    ∃ t, stepWith config (machine 0x0FF [0x01]) = .next t ∧ t.running ≠ (machine 0x0FF [0x01]).running :=
  ⟨_, rfl, by decide⟩

theorem witness_OutputIsAppendOnlyAndNeverRead :
    ∃ t, stepWith config (machine 0 [0x47, 7]) = .next t ∧ t.out = [244] := ⟨_, rfl, by decide⟩

theorem witness_AluComputesTheTableOfNumerics : (255 : Byte) ≠ 0 := by decide

theorem witness_ModWritesTheRemainderOrFaults :
    (pair 0xA4 0x11 5).reg 1 ≠ 0 ∧ (pair 0xA4 7 0).reg 1 = 0 := by decide

theorem witness_ShiftsUseTheWholeCount : 8 ≤ ((pair 0xAC 1 8).reg 1).toNat := by decide

theorem witness_HltClearsRunningAndKeepsPc :
    (machine 0x0FF [0x01]).running = true ∧ (machine 0x0FF [0x01]).fault = none ∧
    (machine 0x0FF [0x01]).pc.toNat = 255 ∧ (machine 0x0FF [0x01]).mem.read 255 = 0x01 := by decide

theorem witness_PopLoadsTheTopOfTheStack : (6 : Fin numRegs) ≠ 7 ∧ (7 : Fin numRegs) = 7 := by decide

theorem witness_ConditionalJumpsTestEqualOnly : (machine 0x0FE [0x55, 2]).pc.toNat + 2 ≤ 256 := by decide

theorem witness_CallPushesTheReturnAddress :
    (machine 0x0FD [0x50, 1]).pc.toNat + 2 < 256 ∧ 256 ≤ (machine 0x0FE [0x50, 1]).pc.toNat + 2 := by decide

theorem witness_CallThenRetReturns : (machine 0x0FD [0x50, 1]).pc.toNat + 2 < 256 := by decide

end Sys2Proof.Tests
end

section
/-! Encoding proofs: the decoder reads back what the encoder writes, whatever bytes follow it
(spec/30_encoding.md R50 to R55). -/

namespace Sys2Proof

/-- A byte of the opcode table decodes by taking the operands of its row's format. -/
theorem decode_cons_of_lookup {opcode : Byte} {format : OpcodeFormat}
    (hrow : opcodeTable.lookup opcode = some format) (bytes : List Byte) :
    decode (opcode :: bytes) = decodeOperands opcode format bytes := by
  simp [decode, hrow]

/-- Operand fetch that succeeds takes the same operands when more bytes follow, and leaves those bytes. -/
theorem decodeOperands_append {opcode : Byte} {format : OpcodeFormat} {bytes left : List Byte} {i : Instr}
    (h : decodeOperands opcode format bytes = .ok (i, left)) (rest : List Byte) :
    decodeOperands opcode format (bytes ++ rest) = .ok (i, left ++ rest) := by
  match format, bytes, h with
  | .z _, _, rfl => rfl
  | .r _, _ :: _, rfl => rfl
  | .rr _, _ :: _ :: _, rfl => rfl
  | .ri _, _ :: _ :: _, rfl => rfl

/-- Every instruction's opcode stands in the opcode table, in a row that rebuilds the instruction. -/
theorem opcodeListed : (i : Instr) → Laws.OpcodeListed.Statement i
  | .hlt => Laws.OpcodeListed.hlt
  | .ret => Laws.OpcodeListed.ret
  | .push ra => Laws.OpcodeListed.push ra
  | .pop ra => Laws.OpcodeListed.pop ra
  | .prn ra => Laws.OpcodeListed.prn ra
  | .call ra => Laws.OpcodeListed.call ra
  | .jmp ra => Laws.OpcodeListed.jmp ra
  | .jeq ra => Laws.OpcodeListed.jeq ra
  | .jne ra => Laws.OpcodeListed.jne ra
  | .not ra => Laws.OpcodeListed.not ra
  | .ldi ra imm => Laws.OpcodeListed.ldi ra imm
  | .mul ra rb => Laws.OpcodeListed.mul ra rb
  | .mod ra rb => Laws.OpcodeListed.mod ra rb
  | .cmp ra rb => Laws.OpcodeListed.cmp ra rb
  | .and ra rb => Laws.OpcodeListed.and ra rb
  | .or ra rb => Laws.OpcodeListed.or ra rb
  | .xor ra rb => Laws.OpcodeListed.xor ra rb
  | .shl ra rb => Laws.OpcodeListed.shl ra rb
  | .shr ra rb => Laws.OpcodeListed.shr ra rb

/-- The bytes of an instruction decode to it, and every byte after them is left. -/
theorem decode_encode_append (i : Instr) (rest : List Byte) : decode (encode i ++ rest) = .ok (i, rest) := by
  obtain ⟨format, hrow, hoperands⟩ := opcodeListed i
  calc decode (encode i ++ rest)
      = decodeOperands i.opcode format (i.operandBytes ++ rest) := decode_cons_of_lookup hrow _
    _ = .ok (i, rest) := decodeOperands_append hoperands rest

/-- Settles O1: the bytes of each row are the encoding of the row's instruction, which decodes back to it. -/
theorem opcodeTableSelectsInstruction : Obligations.OpcodeTableSelectsInstruction := fun a b rest =>
  ⟨decode_encode_append .hlt rest, decode_encode_append .ret rest,
    decode_encode_append (.push a) rest, decode_encode_append (.pop a) rest,
    decode_encode_append (.prn a) rest, decode_encode_append (.call a) rest,
    decode_encode_append (.jmp a) rest, decode_encode_append (.jeq a) rest,
    decode_encode_append (.jne a) rest, decode_encode_append (.not a) rest,
    decode_encode_append (.ldi a b) rest, decode_encode_append (.mul a b) rest,
    decode_encode_append (.mod a b) rest, decode_encode_append (.cmp a b) rest,
    decode_encode_append (.and a b) rest, decode_encode_append (.or a b) rest,
    decode_encode_append (.xor a b) rest, decode_encode_append (.shl a b) rest,
    decode_encode_append (.shr a b) rest⟩

end Sys2Proof
end

section
/-! ALU proofs: MUL, AND, OR, XOR and NOT write their result to the first operand register, CMP writes the flags
(spec/41_alu.md R93 to R98). -/

namespace Sys2Proof.Machine

/-- On operand bytes that name registers, a format `RR` ALU instruction is the data path on those registers. -/
theorem aluBinary_regByte (op : AluOp) (opcode : Byte) (a b : Fin numRegs) (s : State) :
    aluBinary op opcode (regByte a) (regByte b) s = aluStep op opcode a b 3 s :=
  withRegisters_regByte ..

/-- On an operand byte that names a register, a format `R` ALU instruction passes that register twice. -/
theorem aluUnary_regByte (op : AluOp) (opcode : Byte) (a : Fin numRegs) (s : State) :
    aluUnary op opcode (regByte a) s = aluStep op opcode a a 2 s :=
  withRegister_regByte ..

/-- Where the ALU answers a value alone, the data path writes it to the destination and moves pc on. -/
theorem aluStep_of_alu_eq_aluValue {op : AluOp} {a b : Fin numRegs} {s : State} {v : Byte}
    (hv : alu op (s.reg a) (s.reg b) = aluValue v) (opcode : Byte) (len : Pc) :
    aluStep op opcode a b len s = .next ((s.setReg a v).advance len) := by
  rw [aluStep, hv]
  rfl

/-- An instruction whose meaning is a register write and a sequential pc has the frame of one. -/
theorem writesRegisterOnly_of_exec_eq {i : Instr} {s : State} {a : Fin numRegs} {v : Byte} {len : Pc}
    (he : exec i s = .next ((s.setReg a v).advance len)) : WritesRegisterOnly i s a v.toNat len := by
  have hother : SameRegsExcept [a] s ((s.setReg a v).advance len) := fun q hq =>
    setReg_reg_of_ne s v (List.ne_of_not_mem_cons hq)
  exact ⟨_, he, by simp, rfl, hother, rfl, rfl, ⟨fun _ => rfl, rfl⟩, rfl, rfl⟩

/-- A format `RR` ALU instruction whose ALU answer is a value alone writes that value to its first register. -/
theorem writesRegisterOnly_of_aluBinary {op : AluOp} {opcode v : Byte} {i : Instr} {s : State} {a b : Fin numRegs}
    (he : exec i s = aluBinary op opcode (regByte a) (regByte b) s)
    (hv : alu op (s.reg a) (s.reg b) = aluValue v) : WritesRegisterOnly i s a v.toNat 3 :=
  writesRegisterOnly_of_exec_eq <| calc exec i s
    _ = aluStep op opcode a b 3 s := he.trans (aluBinary_regByte ..)
    _ = .next ((s.setReg a v).advance 3) := aluStep_of_alu_eq_aluValue hv ..

/-- A format `R` ALU instruction whose ALU answer is a value alone writes that value to its register. -/
theorem writesRegisterOnly_of_aluUnary {op : AluOp} {opcode v : Byte} {i : Instr} {s : State} {a : Fin numRegs}
    (he : exec i s = aluUnary op opcode (regByte a) s)
    (hv : alu op (s.reg a) (s.reg a) = aluValue v) : WritesRegisterOnly i s a v.toNat 2 :=
  writesRegisterOnly_of_exec_eq <| calc exec i s
    _ = aluStep op opcode a a 2 s := he.trans (aluUnary_regByte ..)
    _ = .next ((s.setReg a v).advance 2) := aluStep_of_alu_eq_aluValue hv ..

/-! The flags of a comparison -/

theorem compareFlags_L_iff (a b : Byte) : (compareFlags a b).L = true ↔ a.toNat < b.toNat := decide_eq_true_iff

theorem compareFlags_G_iff (a b : Byte) : (compareFlags a b).G = true ↔ a.toNat > b.toNat := decide_eq_true_iff

theorem compareFlags_E_iff (a b : Byte) : (compareFlags a b).E = true ↔ a.toNat = b.toNat :=
  decide_eq_true_iff.trans BitVec.toNat_inj.symm

/-- A comparison sets exactly one flag, since unsigned order is trichotomous (spec/10_state.md R16). -/
theorem compareFlags_exactlyOne (a b : Byte) : (compareFlags a b).exactlyOne = true := by
  rcases Nat.lt_trichotomy a.toNat b.toNat with hlt | heq | hgt
  · have hne : a ≠ b := by bv_omega
    simp [compareFlags, Flags.exactlyOne, Flags.atMostOne, hlt, Nat.lt_asymm hlt, hne]
  · simp [compareFlags, Flags.exactlyOne, Flags.atMostOne, BitVec.eq_of_toNat_eq heq]
  · have hne : a ≠ b := by bv_omega
    simp [compareFlags, Flags.exactlyOne, Flags.atMostOne, hgt, Nat.lt_asymm hgt, hne]

/-- CMP of two registers writes their comparison to FL and moves pc on (spec/41_alu.md R94). -/
theorem exec_cmp_regByte (s : State) (a b : Fin numRegs) :
    exec (.cmp (regByte a) (regByte b)) s =
      .next ((s.setFlags (compareFlags (s.reg a) (s.reg b))).advance 3) :=
  aluBinary_regByte ..

/-! The obligations -/

/-- Settles O30: the ALU's 8-bit product is the product modulo 256. -/
theorem mulWritesTheProductModulo256 : Obligations.MulWritesTheProductModulo256 := by
  intro s ra rb
  have hproduct : (s.reg ra * s.reg rb).toNat = ((s.reg ra).toNat * (s.reg rb).toNat) % 256 := BitVec.toNat_mul ..
  exact ⟨rfl, hproduct ▸ writesRegisterOnly_of_aluBinary (op := .mul) rfl rfl⟩

/-- Settles O31: the flags CMP writes are those of the comparison, and it writes nothing else but pc. -/
theorem cmpSetsFlagsByUnsignedComparison : Obligations.CmpSetsFlagsByUnsignedComparison := fun s ra rb =>
  ⟨rfl, _, exec_cmp_regByte s ra rb, compareFlags_L_iff .., compareFlags_G_iff .., compareFlags_E_iff ..,
    compareFlags_exactlyOne .., rfl, fun _ _ => rfl, rfl, ⟨fun _ => rfl, rfl⟩, rfl, rfl⟩

/-- Settles O32: each of the three is a format `RR` instruction whose ALU answer is a value alone. -/
theorem bitwiseInstructionsCombineIntoTheFirstRegister :
    Obligations.BitwiseInstructionsCombineIntoTheFirstRegister := fun _ _ _ =>
  ⟨⟨rfl, writesRegisterOnly_of_aluBinary (op := .and) rfl rfl⟩,
    ⟨rfl, writesRegisterOnly_of_aluBinary (op := .or) rfl rfl⟩,
    ⟨rfl, writesRegisterOnly_of_aluBinary (op := .xor) rfl rfl⟩⟩

/-- Settles O33: the bitwise complement of a byte is 255 minus it. -/
theorem notComplementsItsRegister : Obligations.NotComplementsItsRegister := by
  intro s ra
  have hcomplement : (~~~(s.reg ra)).toNat = 255 - (s.reg ra).toNat := BitVec.toNat_not
  exact ⟨rfl, hcomplement ▸ writesRegisterOnly_of_aluUnary (op := .not) rfl rfl⟩

end Sys2Proof.Machine
end

section
/-! Load proofs: LDI writes its immediate to its register (spec/42_load_output_halt.md R110). -/

namespace Sys2Proof.Machine

/-- LDI of an operand byte that names a register writes the immediate there and moves pc on: the immediate byte is not
checked (spec/42_load_output_halt.md R110). -/
theorem exec_ldi_regByte (s : State) (a : Fin numRegs) (imm : Byte) :
    exec (.ldi (regByte a) imm) s = .next ((s.setReg a imm).advance 3) :=
  withRegister_regByte ..

/-- Settles O36: LDI is a register write and a sequential pc, which has the frame of one. -/
theorem ldiLoadsTheImmediateUnchanged : Obligations.LdiLoadsTheImmediateUnchanged := fun s ra imm =>
  ⟨rfl, writesRegisterOnly_of_exec_eq (exec_ldi_regByte s ra imm)⟩

end Sys2Proof.Machine
end

section
/-! Jump proofs: JMP, JEQ and JNE write pc and nothing else (spec/44_control_transfer.md R131 to R133). -/

namespace Sys2Proof.Machine

/-- Zero extension keeps the value of a jump target. -/
theorem zext9_toNat (v : Byte) : (zext9 v).toNat = v.toNat :=
  BitVec.toNat_setWidth_of_le (by decide)

/-- Where an instruction of two bytes lies inside memory, the pc after it does not wrap. -/
theorem pc_add_two_toNat {pc : Pc} (hpc : pc.toNat + 2 ≤ 256) : (pc + 2).toNat = pc.toNat + 2 := by
  bv_omega

/-- An instruction whose meaning is a write of pc has the frame of one. -/
theorem jumpsOnly_of_exec_eq_setPc {i : Instr} {s : State} {target : Pc}
    (he : exec i s = .next (s.setPc target)) : JumpsOnly i s target.toNat :=
  ⟨_, he, rfl, fun _ _ => rfl, rfl, rfl, ⟨fun _ => rfl, rfl⟩, rfl, rfl⟩

/-- An instruction whose meaning is a jump leaves pc at the target byte. -/
theorem jumpsOnly_of_exec_eq_jump {i : Instr} {s : State} {v : Byte}
    (he : exec i s = .next (s.jump v)) : JumpsOnly i s v.toNat :=
  zext9_toNat v ▸ jumpsOnly_of_exec_eq_setPc he

/-- An instruction whose meaning is a conditional jump leaves pc at the register's value or past its two bytes. -/
theorem jumpsOnly_of_exec_eq_jumpIf {i : Instr} {s : State} {taken : Bool} {a : Fin numRegs}
    (he : exec i s = jumpIf taken a s) (hpc : s.pc.toNat + 2 ≤ 256) :
    JumpsOnly i s (if taken then (s.reg a).toNat else s.pc.toNat + 2) := by
  obtain ⟨rfl, hjump⟩ | ⟨rfl, hadvance⟩ := jumpIf_cases taken a s
  · exact jumpsOnly_of_exec_eq_jump (he.trans hjump)
  · exact pc_add_two_toNat hpc ▸ jumpsOnly_of_exec_eq_setPc (he.trans hadvance)

/-! The meanings on an operand byte that names a register -/

theorem exec_jmp_regByte (s : State) (a : Fin numRegs) : exec (.jmp (regByte a)) s = .next (s.jump (s.reg a)) :=
  withRegister_regByte ..

theorem exec_jeq_regByte (s : State) (a : Fin numRegs) : exec (.jeq (regByte a)) s = jumpIf s.flags.E a s :=
  withRegister_regByte ..

theorem exec_jne_regByte (s : State) (a : Fin numRegs) : exec (.jne (regByte a)) s = jumpIf (!s.flags.E) a s :=
  withRegister_regByte ..

/-! The obligations -/

/-- Settles O43: JMP is a jump to its register's value. -/
theorem jmpGoesToItsRegister : Obligations.JmpGoesToItsRegister := fun s ra =>
  ⟨rfl, jumpsOnly_of_exec_eq_jump (exec_jmp_regByte s ra)⟩

/-- Settles O44: JEQ is the conditional jump on E, JNE the one on its negation. -/
theorem conditionalJumpsTestEqualOnly : Obligations.ConditionalJumpsTestEqualOnly := by
  intro s ra hpc
  have hjeq := jumpsOnly_of_exec_eq_jumpIf (exec_jeq_regByte s ra) hpc
  have hjne := jumpsOnly_of_exec_eq_jumpIf (exec_jne_regByte s ra) hpc
  exact ⟨rfl, rfl, hjeq, by simpa only [Bool.not_eq_true', ← Bool.not_eq_true, ite_not] using hjne⟩

end Sys2Proof.Machine
end

section
/-! Decoder proofs: everything the decoder can answer, and the converse of the round trip
(spec/30_encoding.md R50 to R57, spec/40_dispatch_loop.md R72 to R75). -/

namespace Sys2Proof

/-! Lengths -/

theorem encode_length (i : Instr) : (encode i).length = i.length := by
  cases i <;> rfl

theorem operandBytes_length (i : Instr) : i.operandBytes.length + 1 = i.length := encode_length i

/-- Bits 7 and 6 of an opcode count its operand bytes (spec/30_encoding.md R57). -/
theorem opcode_shift_six (i : Instr) : (i.opcode >>> 6).toNat = i.operandBytes.length := by
  cases i <;> simp [Instr.opcode, Instr.operandBytes]

theorem length_eq_of_opcode_eq {i j : Instr} (h : i.opcode = j.opcode) : i.length = j.length := by
  rw [← operandBytes_length, ← operandBytes_length, ← opcode_shift_six, ← opcode_shift_six, h]

theorem length_pos (i : Instr) : 1 ≤ i.length := operandBytes_length i ▸ Nat.le_add_left ..

theorem length_le_three (i : Instr) : i.length ≤ 3 := by
  cases i <;> simp [Instr.length]

theorem lookup_opcode_ne_none (i : Instr) : opcodeTable.lookup i.opcode ≠ none := by
  obtain ⟨format, hrow, -⟩ := opcodeListed i
  simp [hrow]

/-! Rows of the opcode table -/

/-- Every instruction that the format builds from operand bytes is encoded as the opcode and those bytes. -/
def OpcodeFormat.BuildsInstrsOf (opcode : Byte) : OpcodeFormat → Prop
  | .z build => encode build = [opcode]
  | .r build => ∀ a, encode (build a) = [opcode, a]
  | .rr build => ∀ a b, encode (build a b) = [opcode, a, b]
  | .ri build => ∀ a b, encode (build a b) = [opcode, a, b]

/-- The opcode table and the encoder agree row by row (spec/30_encoding.md R55). -/
theorem opcodeTable_builds : ∀ row ∈ opcodeTable, row.2.BuildsInstrsOf row.1 := by
  simp [opcodeTable, OpcodeFormat.BuildsInstrsOf, encode, Instr.opcode, Instr.operandBytes]

theorem builds_of_lookup {opcode : Byte} {format : OpcodeFormat} (h : opcodeTable.lookup opcode = some format) :
    format.BuildsInstrsOf opcode := by
  obtain ⟨before, after, htable, -⟩ := List.lookup_eq_some_iff.1 h
  exact opcodeTable_builds (opcode, format) (by simp [htable])

/-- Operand fetch for a row of the table: it reads off an encoding, or the operand bytes run out and it reports the
number of bytes there are, the opcode included, as the first missing operand (spec/40_dispatch_loop.md R75). -/
theorem decodeOperands_cases {opcode : Byte} {format : OpcodeFormat} (h : format.BuildsInstrsOf opcode)
    (bytes : List Byte) :
    (∃ i rest, opcode :: bytes = encode i ++ rest ∧ decodeOperands opcode format bytes = .ok (i, rest)) ∨
    (∃ i : Instr, i.opcode = opcode ∧ bytes.length + 1 < i.length ∧
      decodeOperands opcode format bytes = .error (.missingOperand opcode (bytes.length + 1))) := by
  have ends_early : ∀ {i : Instr} {operands : List Byte}, encode i = opcode :: operands →
      bytes.length < operands.length →
      decodeOperands opcode format bytes = .error (.missingOperand opcode (bytes.length + 1)) →
      ∃ i : Instr, i.opcode = opcode ∧ bytes.length + 1 < i.length ∧
        decodeOperands opcode format bytes = .error (.missingOperand opcode (bytes.length + 1)) := by
    intro i operands he hlt herr
    exact ⟨i, (List.cons.inj he).1, by rw [← encode_length, he]; exact Nat.succ_lt_succ hlt, herr⟩
  match format, h, bytes with
  | .z build, h, bytes => exact .inl ⟨build, bytes, by rw [h]; rfl, rfl⟩
  | .r build, h, a :: rest => exact .inl ⟨build a, rest, by rw [h]; rfl, rfl⟩
  | .rr build, h, a :: b :: rest => exact .inl ⟨build a b, rest, by rw [h]; rfl, rfl⟩
  | .ri build, h, a :: b :: rest => exact .inl ⟨build a b, rest, by rw [h]; rfl, rfl⟩
  | .r _, h, [] => exact .inr (ends_early (h 0) (by decide) rfl)
  | .rr _, h, [] => exact .inr (ends_early (h 0 0) (by simp) rfl)
  | .ri _, h, [] => exact .inr (ends_early (h 0 0) (by simp) rfl)
  | .rr _, h, [a] => exact .inr (ends_early (h a 0) (by simp) rfl)
  | .ri _, h, [a] => exact .inr (ends_early (h a 0) (by simp) rfl)

/-! The decoder -/

theorem decode_of_lookup_eq_none {opcode : Byte} (h : opcodeTable.lookup opcode = none) (bytes : List Byte) :
    decode (opcode :: bytes) = .error (.unknownOpcode opcode) := by
  simp [decode, h]

/-- Everything the decoder can answer: there is no opcode byte, the first byte is no opcode, the operand bytes run out,
or the bytes begin with the encoding of an instruction. -/
theorem decode_cases (bytes : List Byte) :
    (bytes = [] ∧ decode bytes = .error .noOpcode) ∨
    (∃ opcode, bytes.head? = some opcode ∧ opcodeTable.lookup opcode = none ∧
      decode bytes = .error (.unknownOpcode opcode)) ∨
    (∃ i : Instr, bytes.head? = some i.opcode ∧ bytes.length < i.length ∧
      decode bytes = .error (.missingOperand i.opcode bytes.length)) ∨
    (∃ i rest, bytes = encode i ++ rest ∧ decode bytes = .ok (i, rest)) := by
  match bytes with
  | [] => exact .inl ⟨rfl, rfl⟩
  | opcode :: operands =>
    cases hrow : opcodeTable.lookup opcode with
    | none => exact .inr (.inl ⟨opcode, rfl, hrow, decode_of_lookup_eq_none hrow operands⟩)
    | some format =>
      have hd := decode_cons_of_lookup hrow operands
      rcases decodeOperands_cases (builds_of_lookup hrow) operands with ⟨i, rest, hbytes, hok⟩ | ⟨i, rfl, hlt, herr⟩
      · exact .inr (.inr (.inr ⟨i, rest, hbytes, hd.trans hok⟩))
      · exact .inr (.inr (.inl ⟨i, rfl, hlt, hd.trans herr⟩))

/-- What decodes to an instruction is its encoding and the bytes left. -/
theorem eq_encode_append_of_decode {bytes rest : List Byte} {i : Instr} (h : decode bytes = .ok (i, rest)) :
    bytes = encode i ++ rest := by
  rcases decode_cases bytes with ⟨-, e⟩ | ⟨_, -, -, e⟩ | ⟨_, -, -, e⟩ | ⟨j, left, hbytes, e⟩ <;> rw [h] at e
  case inr.inr.inr =>
    obtain ⟨rfl, rfl⟩ := Prod.mk.inj (Except.ok.inj e)
    exact hbytes
  all_goals cases e

/-- A byte is reported as an unknown opcode exactly where it is not in the table. -/
theorem decode_unknownOpcode_iff (opcode : Byte) (bytes : List Byte) :
    decode (opcode :: bytes) = .error (.unknownOpcode opcode) ↔ opcodeTable.lookup opcode = none := by
  refine ⟨fun h => ?_, fun h => decode_of_lookup_eq_none h bytes⟩
  rcases decode_cases (opcode :: bytes) with ⟨e, -⟩ | ⟨_, hhead, hnone, -⟩ | ⟨_, -, -, e⟩ | ⟨_, _, -, e⟩
  · cases e
  · cases hhead
    exact hnone
  all_goals rw [h] at e; cases e

/-- The bytes not in the table are those in the listed ranges (spec/30_encoding.md R56). -/
theorem lookup_eq_none_iff_in_unknownOpcodeRanges (opcode : Byte) :
    opcodeTable.lookup opcode = none ↔
      ∃ p ∈ Machine.unknownOpcodeRanges, p.1 ≤ opcode.toNat ∧ opcode.toNat ≤ p.2 := by
  have hlt := opcode.isLt
  simp only [opcodeTable, BitVec.ofNat_eq_ofNat, List.lookup_eq_none_iff, List.mem_cons, List.not_mem_nil,
    or_false, bne_iff_ne, ne_eq, ← BitVec.toNat_inj, forall_eq_or_imp, BitVec.toNat_ofNat, Nat.reducePow, Nat.one_mod,
    Nat.reduceMod, forall_eq, Machine.unknownOpcodeRanges, exists_eq_or_imp, zero_le, nonpos_iff_eq_zero, true_and,
    ↓existsAndEq]
  omega

/-! The obligations -/

/-- Settles O2: the round trip `decode_encode_append` is one direction, and what operand fetch took is the other. -/
theorem decodeAgreesWithEncode : Obligations.DecodeAgreesWithEncode := fun _ rest i =>
  ⟨eq_encode_append_of_decode, fun h => h ▸ decode_encode_append i rest⟩

/-- Settles O3: an unknown opcode is a byte without a row in the table. -/
theorem unknownOpcodesAreTheListedRanges : Obligations.UnknownOpcodesAreTheListedRanges :=
  ⟨fun op rest => (decode_unknownOpcode_iff op rest).trans (lookup_eq_none_iff_in_unknownOpcodeRanges op), rfl⟩

/-- Settles O4: the bits of each of the 19 opcodes. -/
theorem opcodeBitsFollowTheObservedPattern : Obligations.OpcodeBitsFollowTheObservedPattern := by
  refine ⟨fun i => ⟨opcode_shift_six i, ?_, ?_⟩, decode_of_lookup_eq_none rfl⟩
  · cases i <;> simp [Instr.opcode]
  · cases i <;> simp [Instr.opcode]

end Sys2Proof
end

section
/-! Fetch proofs: what the fetch and decode phases give, by what stands in memory from pc
(spec/40_dispatch_loop.md R72 to R76), and the loop guard (R71). -/

namespace Sys2Proof.Machine

/-! The fetch window -/

theorem fetchWindow_head? {s : State} (h : s.pc.toNat < 256) :
    s.fetchWindow.head? = some (s.mem.read s.pc.toNat) := by
  rcases fetchWindow_cases s with ⟨hge, -⟩ | ⟨hpc, e⟩ | ⟨hpc, e⟩ | ⟨-, e⟩
  · omega
  · rw [e, hpc]; rfl
  · rw [e, hpc]; rfl
  · rw [e]; rfl

/-- The window is cut at the end of memory. -/
theorem fetchWindow_length (s : State) : s.fetchWindow.length = min 3 (256 - s.pc.toNat) := by
  rcases fetchWindow_cases s with ⟨hge, e⟩ | ⟨hpc, e⟩ | ⟨hpc, e⟩ | ⟨hlt, e⟩ <;>
    simp only [e, List.length_cons, List.length_nil] <;> omega

/-- A window that is too short for an instruction ends where memory ends. -/
theorem fetchWindow_length_of_lt {s : State} {i : Instr} (h : s.fetchWindow.length < i.length) :
    s.fetchWindow.length = 256 - s.pc.toNat := by
  have := fetchWindow_length s
  have := length_le_three i
  omega

theorem pc_lt_of_fetchWindow_head? {s : State} {b : Byte} (h : s.fetchWindow.head? = some b) :
    s.pc.toNat < 256 ∧ s.mem.read s.pc.toNat = b := by
  rcases Nat.lt_or_ge s.pc.toNat 256 with hlt | hge
  · exact ⟨hlt, Option.some.inj ((fetchWindow_head? hlt).symm.trans h)⟩
  · rw [fetchWindow_of_ge hge] at h
    cases h

/-- Where an instruction fits, the bytes after its opcode are those after pc. -/
theorem take_tail_fetchWindow {s : State} {n : Nat} (hn : n ≤ 2) (hfit : s.pc.toNat + (n + 1) ≤ 256) :
    s.fetchWindow.tail.take n = [s.mem.read (s.pc.toNat + 1), s.mem.read (s.pc.toNat + 2)].take n := by
  rcases fetchWindow_cases s with ⟨hge, -⟩ | ⟨hpc, e⟩ | ⟨hpc, e⟩ | ⟨-, e⟩
  · omega
  · obtain rfl : n = 0 := by omega
    rfl
  · obtain rfl | rfl : n = 0 ∨ n = 1 := by omega
    · rfl
    · rw [e, hpc]; rfl
  · rw [e]; rfl

/-! Fetch and decode -/

theorem fetchDecode_of_decode_ok {s : State} {i : Instr} {rest : List Byte}
    (h : decode s.fetchWindow = .ok (i, rest)) : s.fetchDecode = .ok i := by
  simp [State.fetchDecode, h]

theorem fetchDecode_of_decode_error {s : State} {e : DecodeError}
    (h : decode s.fetchWindow = .error e) : s.fetchDecode = .error e := by
  simp [State.fetchDecode, h]

theorem fetchDecode_of_fetchWindow {s : State} {i : Instr} {rest : List Byte}
    (h : s.fetchWindow = encode i ++ rest) : s.fetchDecode = .ok i :=
  fetchDecode_of_decode_ok (h ▸ decode_encode_append i rest)

/-- Everything the fetch and decode phases can give: a fetch above memory, a byte that is no opcode, an operand that
would lie at 256, or the instruction whose bytes stand at pc. -/
theorem fetchDecode_cases (s : State) :
    (256 ≤ s.pc.toNat ∧ s.fetchDecode = .error .noOpcode) ∨
    (s.pc.toNat < 256 ∧ opcodeTable.lookup (s.mem.read s.pc.toNat) = none ∧
      s.fetchDecode = .error (.unknownOpcode (s.mem.read s.pc.toNat))) ∨
    (∃ i : Instr, s.pc.toNat < 256 ∧ s.mem.read s.pc.toNat = i.opcode ∧ 256 < s.pc.toNat + i.length ∧
      s.fetchDecode = .error (.missingOperand i.opcode (256 - s.pc.toNat))) ∨
    (∃ i : Instr, s.mem.read s.pc.toNat = i.opcode ∧ s.pc.toNat + i.length ≤ 256 ∧
      i.operandBytes = [s.mem.read (s.pc.toNat + 1), s.mem.read (s.pc.toNat + 2)].take (i.length - 1) ∧
      s.fetchDecode = .ok i) := by
  rcases decode_cases s.fetchWindow with ⟨hnil, e⟩ | ⟨op, hhead, hnone, e⟩ | ⟨i, hhead, hlt, e⟩ | ⟨i, rest, hbytes, e⟩
  · refine .inl ⟨?_, fetchDecode_of_decode_error e⟩
    have hlen := fetchWindow_length s
    rw [hnil, List.length_nil] at hlen
    omega
  · obtain ⟨hpc, rfl⟩ := pc_lt_of_fetchWindow_head? hhead
    exact .inr (.inl ⟨hpc, hnone, fetchDecode_of_decode_error e⟩)
  · obtain ⟨hpc, hop⟩ := pc_lt_of_fetchWindow_head? hhead
    have hlen := fetchWindow_length_of_lt hlt
    exact .inr (.inr (.inl ⟨i, hpc, hop, by omega, hlen ▸ fetchDecode_of_decode_error e⟩))
  · obtain ⟨hpc, hop⟩ := pc_lt_of_fetchWindow_head? (b := i.opcode) (by rw [hbytes]; rfl)
    have hoperands := operandBytes_length i
    have hle := length_le_three i
    have hfit : s.pc.toNat + i.length ≤ 256 := by
      have hlen := fetchWindow_length s
      rw [hbytes, List.length_append, encode_length] at hlen
      omega
    refine .inr (.inr (.inr ⟨i, hop, hfit, ?_, fetchDecode_of_decode_ok e⟩))
    rw [← take_tail_fetchWindow (by omega) (by omega), hbytes]
    exact (List.take_left' (by omega)).symm

theorem fetchDecode_of_ge {s : State} (h : 256 ≤ s.pc.toNat) : s.fetchDecode = .error .noOpcode :=
  fetchDecode_of_decode_error (by rw [fetchWindow_of_ge h]; rfl)

/-- An instruction decoded at pc lies inside memory, with its opcode at pc. -/
theorem bytes_of_fetchDecode_eq_ok {s : State} {i : Instr} (h : s.fetchDecode = .ok i) :
    s.mem.read s.pc.toNat = i.opcode ∧ s.pc.toNat + i.length ≤ 256 := by
  rcases fetchDecode_cases s with ⟨-, e⟩ | ⟨-, -, e⟩ | ⟨_, -, -, -, e⟩ | ⟨j, hop, hfit, -, e⟩ <;> rw [h] at e
  case inr.inr.inr => cases e; exact ⟨hop, hfit⟩
  all_goals cases e

/-- A byte outside the opcode table is an unknown opcode at pc. -/
theorem fetchDecode_of_lookup_eq_none {s : State} (hpc : s.pc.toNat < 256)
    (hnone : opcodeTable.lookup (s.mem.read s.pc.toNat) = none) :
    s.fetchDecode = .error (.unknownOpcode (s.mem.read s.pc.toNat)) := by
  rcases fetchDecode_cases s with ⟨hge, -⟩ | ⟨-, -, e⟩ | ⟨i, -, hop, -⟩ | ⟨i, hop, -⟩
  · omega
  · exact e
  all_goals exact absurd hnone (hop ▸ lookup_opcode_ne_none i)

/-- A known opcode at pc whose instruction does not fit has an operand byte missing at 256. -/
theorem fetchDecode_of_length_gt {s : State} {i : Instr} (hpc : s.pc.toNat < 256)
    (hop : s.mem.read s.pc.toNat = i.opcode) (hlen : 256 < s.pc.toNat + i.length) :
    s.fetchDecode = .error (.missingOperand i.opcode (256 - s.pc.toNat)) := by
  rcases fetchDecode_cases s with ⟨hge, -⟩ | ⟨-, hnone, -⟩ | ⟨j, -, hj, -, e⟩ | ⟨j, hj, hfit, -⟩
  · omega
  · exact absurd (hop ▸ hnone) (lookup_opcode_ne_none i)
  · rw [e, hj.symm.trans hop]
  · have := length_eq_of_opcode_eq (hj.symm.trans hop)
    omega

/-- A known opcode at pc whose instruction fits is decoded with the bytes after it as operands. -/
theorem fetchDecode_of_length_le {s : State} {i : Instr} (hop : s.mem.read s.pc.toNat = i.opcode)
    (hfit : s.pc.toNat + i.length ≤ 256) :
    ∃ j : Instr, j.opcode = i.opcode ∧
      j.operandBytes = [s.mem.read (s.pc.toNat + 1), s.mem.read (s.pc.toNat + 2)].take (i.length - 1) ∧
      s.fetchDecode = .ok j := by
  have := length_pos i
  rcases fetchDecode_cases s with ⟨hge, -⟩ | ⟨-, hnone, -⟩ | ⟨j, -, hj, hgt, -⟩ | ⟨j, hj, -, hoperands, e⟩
  · omega
  · exact absurd (hop ▸ hnone) (lookup_opcode_ne_none i)
  · have := length_eq_of_opcode_eq (hj.symm.trans hop)
    omega
  · exact ⟨j, hj.symm.trans hop, length_eq_of_opcode_eq (hj.symm.trans hop) ▸ hoperands, e⟩

/-! The loop guard and the phases of an active step -/

theorem stepWith_of_not_active (c : Config) {s : State} (h : s.active = false) : stepWith c s = .next s := by
  simp [stepWith, h, idle]

theorem stepWith_of_fetchDecode_ok (c : Config) {s : State} {i : Instr} (ha : s.active = true)
    (hd : s.fetchDecode = .ok i) : stepWith c s = exec i s := by
  simp [stepWith, ha, hd]

theorem stepWith_of_fetchDecode_error (c : Config) {s : State} {e : DecodeError} (ha : s.active = true)
    (hd : s.fetchDecode = .error e) : stepWith c s = noInstruction c e s := by
  simp [stepWith, ha, hd]

theorem active_of {s : State} (hrun : s.running = true) (hfault : s.fault = none) : s.active = true :=
  (active_iff s).2 ⟨hrun, hfault⟩

theorem not_active_iff (s : State) : s.active = false ↔ s.running = false ∨ s.fault ≠ none := by
  rw [← Bool.not_eq_true, active_iff, Classical.not_and_iff_not_or_not, Bool.not_eq_true]

/-- A state that one pass of the loop does not change is not changed by any number. -/
theorem runWith_of_stepWith_eq_self {c : Config} {s : State} (h : stepWith c s = .next s) (n : Nat) :
    runWith c n s = .next s := by
  induction n with
  | zero => rfl
  | succ n ih => simp [runWith, h, ih]

theorem exec_hlt (s : State) : exec .hlt s = .next s.halt := rfl

/-! The obligations -/

/-- Settles O9: a stopped machine's pass answers the same state, and so does any number of passes. -/
theorem stoppedMachineKeepsItsState : Obligations.StoppedMachineKeepsItsState := by
  intro c s hstop
  have hstep := stepWith_of_not_active c ((not_active_iff s).2 hstop)
  exact ⟨hstep, runWith_of_stepWith_eq_self hstep⟩

/-- Settles O10: the fetch window begins with the instruction's encoding, which decodes to it. -/
theorem stepRunsTheInstructionAtPc : Obligations.StepRunsTheInstructionAtPc := by
  intro c s i hrun hfault hin hat
  have hlen := encode_length i
  obtain ⟨rest, hwindow⟩ := fetchWindow_of_bytes (hlen ▸ length_pos i) (hlen ▸ length_le_three i) hin hat
  have hd := fetchDecode_of_fetchWindow hwindow
  have ha := active_of hrun hfault
  exact ⟨stepWith_of_fetchDecode_ok c ha hd, stepWith_of_fetchDecode_ok config ha hd⟩

/-- Settles O11: above memory the fetch window is empty, below it begins with the byte at pc. -/
theorem fetchBeyondMemoryFaults : Obligations.FetchBeyondMemoryFaults := by
  intro c s hrun hfault
  refine ⟨fun hge => ⟨_, ?_, rfl⟩, fetchWindow_head?⟩
  exact stepWith_of_fetchDecode_error c (active_of hrun hfault) (fetchDecode_of_ge hge)

/-- Settles O12: an unknown opcode raises its fault, or under policy `stall` leaves a state that every pass leaves. -/
theorem unknownOpcodeFollowsThePolicy : Obligations.UnknownOpcodeFollowsThePolicy := by
  refine ⟨?_, fun _ => rfl⟩
  rintro c s op hrun hfault hpc rfl hnone
  have hstep := stepWith_of_fetchDecode_error c (active_of hrun hfault) (fetchDecode_of_lookup_eq_none hpc hnone)
  constructor
  · intro hpolicy
    refine ⟨_, hstep.trans ?_, rfl⟩
    simp [noInstruction, unknownOpcode, hpolicy]
  · intro hpolicy
    refine runWith_of_stepWith_eq_self (hstep.trans ?_)
    simp [noInstruction, unknownOpcode, hpolicy]

/-- Settles O13: the three cases are where the instruction ends relative to the end of memory. -/
theorem operandFetchReportsTheFirstMissingByte : Obligations.OperandFetchReportsTheFirstMissingByte := by
  intro c s i hrun hfault hpc hop
  have ha := active_of hrun hfault
  have missing : ∀ k, k = 256 - s.pc.toNat → 256 < s.pc.toNat + i.length → ∃ t, stepWith c s = .next t ∧
      FaultsWith ⟨.memoryBounds, s.pc, some i.opcode, s.pc.toNat + k⟩ s t := by
    rintro _ rfl hlen
    exact ⟨_, stepWith_of_fetchDecode_error c ha (fetchDecode_of_length_gt hpc hop hlen), rfl⟩
  refine ⟨fun hlen hge => missing 1 (by omega) (by omega), fun hlen hlt hge => missing 2 (by omega) (by omega), ?_⟩
  intro hfit
  obtain ⟨j, hj, hoperands, hd⟩ := fetchDecode_of_length_le hop hfit
  exact ⟨j, hj, hoperands, stepWith_of_fetchDecode_ok c ha hd⟩

/-- Settles O38: HLT writes `running` alone, which stops the loop for good, and it fits in the last cell. -/
theorem hltClearsRunningAndKeepsPc : Obligations.HltClearsRunningAndKeepsPc := by
  refine ⟨rfl, fun s => ⟨s.halt, exec_hlt s, rfl, rfl, rfl, fun _ _ => rfl, rfl, rfl, ⟨fun _ => rfl, rfl⟩, ?_⟩, ?_⟩
  · intro c
    exact runWith_of_stepWith_eq_self (stepWith_of_not_active c ((not_active_iff _).2 (.inl rfl)))
  · intro c s hrun hfault hpc hop
    have hwindow : s.fetchWindow = encode .hlt ++ [] := by rw [fetchWindow_last hpc, hop]; rfl
    exact stepWith_of_fetchDecode_ok c (active_of hrun hfault) (fetchDecode_of_fetchWindow hwindow)

end Sys2Proof.Machine
end

section
/-! Step proofs: one pass of the loop leaves the state as it is, latches a fault, or completes an instruction. What each
of these does to every element of the state is said once (spec/40_dispatch_loop.md R76, spec/60_exceptions.md R150 to
R157). -/

namespace Sys2Proof.Machine

/-- The records that the meaning of an instruction can raise (spec/60_exceptions.md R152, R154, R155). -/
inductive ExecRaises (s : State) : Instr → FaultRecord → Prop
  | registerBounds (i : Instr) (b : Byte) (hmem : b ∈ i.registerOperands) (hge : 8 ≤ b.toNat) :
    ExecRaises s i ⟨.registerBounds, s.pc, some i.opcode, b.toNat⟩
  | divisionByZero (a b : Fin numRegs) (hzero : s.reg b = 0) :
    ExecRaises s (.mod (regByte a) (regByte b)) ⟨.divisionByZero, s.pc, some 0xA4, b.val⟩
  | returnAddress (a : Fin numRegs) (hret : 256 ≤ s.pc.toNat + 2) :
    ExecRaises s (.call (regByte a)) ⟨.memoryBounds, s.pc, some 0x50, s.pc.toNat + 2⟩

/-- The states an instruction that raises nothing can lead to. -/
inductive Completes (s : State) : Instr → State → Prop
  | register (i : Instr) (a : Fin numRegs) (v : Byte) (hop : i.opcode ∈ registerWriters)
      (hdest : i.operandBytes.head? = some (regByte a)) :
    Completes s i ((s.setReg a v).advance (BitVec.ofNat 9 i.length))
  | cmp (a b : Fin numRegs) :
    Completes s (.cmp (regByte a) (regByte b)) ((s.setFlags (compareFlags (s.reg a) (s.reg b))).advance 3)
  | prn (a : Fin numRegs) : Completes s (.prn (regByte a)) ((s.emit (s.reg a)).advance 2)
  | hlt : Completes s .hlt s.halt
  | push (a : Fin numRegs) : Completes s (.push (regByte a)) ((pushByte (fun s1 => s1.reg a) s).advance 2)
  | pop (a : Fin numRegs) : Completes s (.pop (regByte a)) ((s.setReg a s.topOfStack).dropTop.advance 2)
  | jump (i : Instr) (v : Byte) (hop : i.opcode ∈ plainJumps) : Completes s i (s.jump v)
  | fallThrough (i : Instr) (hop : i.opcode ∈ [0x55, 0x56]) (hlen : i.length = 2) : Completes s i (s.advance 2)
  | call (a : Fin numRegs) (v : State → Byte) (target : Byte) :
    Completes s (.call (regByte a)) ((pushByte v s).jump target)
  | ret : Completes s .ret (s.dropTop.jump s.topOfStack)

/-- The records that a step can latch: those of the fetch and decode phases, and those of the instruction decoded. -/
inductive StepRaises (c : Config) (s : State) : FaultRecord → Prop
  | fetch (hpc : 256 ≤ s.pc.toNat) : StepRaises c s ⟨.memoryBounds, s.pc, none, s.pc.toNat⟩
  | unknownOpcode (hpc : s.pc.toNat < 256) (hnone : opcodeTable.lookup (s.mem.read s.pc.toNat) = none)
      (hpolicy : c.unknownOpcodePolicy = .fault) :
    StepRaises c s ⟨.unknownOpcode, s.pc, some (s.mem.read s.pc.toNat), (s.mem.read s.pc.toNat).toNat⟩
  | missingOperand (i : Instr) (hpc : s.pc.toNat < 256) (hop : s.mem.read s.pc.toNat = i.opcode)
      (hlen : 256 < s.pc.toNat + i.length) : StepRaises c s ⟨.memoryBounds, s.pc, some i.opcode, 256⟩
  | exec (i : Instr) (r : FaultRecord) (hd : s.fetchDecode = .ok i) (hr : ExecRaises s i r) : StepRaises c s r

/-- The states that one pass of the loop can lead to. It leaves the state unchanged where the machine is stopped, and
at an unknown opcode under policy `stall`. -/
inductive StepsTo (c : Config) (s : State) : State → Prop
  | unchanged : StepsTo c s s
  | faults (r : FaultRecord) (ha : s.active = true) (hr : StepRaises c s r) : StepsTo c s { s with fault := some r }
  | completes (i : Instr) (t : State) (ha : s.active = true) (hd : s.fetchDecode = .ok i) (h : Completes s i t) :
    StepsTo c s t

/-! The inversion -/

theorem execRaises_of_execFault {i : Instr} {s : State} (h : ExecFault i s) :
    ∃ r, ExecRaises s i r ∧ exec i s = .next { s with fault := some r } := by
  rcases h with ⟨b, hmem, hge, e⟩ | ⟨a, b, rfl, hzero, e⟩ | ⟨a, rfl, hret, e⟩
  · exact ⟨_, .registerBounds i b hmem hge, e⟩
  · exact ⟨_, .divisionByZero a b hzero, e⟩
  · exact ⟨_, .returnAddress a hret, e⟩

/-- JMP, JEQ and JNE jump, and only the conditional two can go on in sequence. -/
theorem completes_of_plainJump {i : Instr} {s : State} {a : Fin numRegs} (hop : i.opcode ∈ plainJumps)
    (hoperands : i.operandBytes = [regByte a])
    (he : exec i s = .next (s.jump (s.reg a)) ∨ exec i s = .next (s.advance 2)) :
    ∃ t, Completes s i t ∧ exec i s = .next t := by
  rcases he with e | e
  · exact ⟨_, .jump i _ hop, e⟩
  · by_cases hjmp : i.opcode = 0x54
    · have hi : i = .jmp (regByte a) := by
        cases i <;> simp [Instr.opcode, Instr.operandBytes] at hjmp hoperands
        rw [hoperands]
      exact ⟨_, .jump i _ hop, hi ▸ exec_jmp_regByte s a⟩
    · have hlen : i.length = 2 := by rw [← operandBytes_length, hoperands]; rfl
      exact ⟨_, .fallThrough i ((List.mem_cons.1 hop).resolve_left hjmp) hlen, e⟩

theorem completes_of_execEffect {i : Instr} {s : State} (h : ExecEffect i s) :
    ∃ t, Completes s i t ∧ exec i s = .next t := by
  rcases h with ⟨a, v, hop, hdest, e⟩ | ⟨a, b, rfl, e⟩ | ⟨a, rfl, e⟩ | ⟨rfl, e⟩ | ⟨a, rfl, e⟩ | ⟨a, rfl, e⟩ |
    ⟨a, hop, hoperands, e⟩ | ⟨a, rfl, -, _, rfl, e⟩ | ⟨rfl, e⟩
  · exact ⟨_, .register i a v hop hdest, e⟩
  · exact ⟨_, .cmp a b, e⟩
  · exact ⟨_, .prn a, e⟩
  · exact ⟨_, .hlt, e⟩
  · exact ⟨_, .push a, e⟩
  · exact ⟨_, .pop a, e⟩
  · exact completes_of_plainJump hop hoperands e
  · exact ⟨_, .call a _ _, e⟩
  · exact ⟨_, .ret, e⟩

/-- A step always answers a next state, and it is one of those named. -/
theorem stepWith_next (c : Config) (s : State) : ∃ t, stepWith c s = .next t ∧ StepsTo c s t := by
  cases ha : s.active with
  | false => exact ⟨s, stepWith_of_not_active c ha, .unchanged⟩
  | true =>
    rcases fetchDecode_cases s with ⟨hpc, hd⟩ | ⟨hpc, hnone, hd⟩ | ⟨i, hpc, hop, hlen, hd⟩ | ⟨i, -, -, -, hd⟩
    · exact ⟨_, stepWith_of_fetchDecode_error c ha hd, .faults _ ha (.fetch hpc)⟩
    · have e := stepWith_of_fetchDecode_error c ha hd
      cases hpolicy : c.unknownOpcodePolicy with
      | fault =>
        exact ⟨_, e.trans (by simp [noInstruction, unknownOpcode, hpolicy]),
          .faults _ ha (.unknownOpcode hpc hnone hpolicy)⟩
      | stall => exact ⟨s, e.trans (by simp [noInstruction, unknownOpcode, hpolicy]), .unchanged⟩
    · refine ⟨_, stepWith_of_fetchDecode_error c ha hd, ?_⟩
      rw [show s.pc.toNat + (256 - s.pc.toNat) = 256 by omega]
      exact .faults _ ha (.missingOperand i hpc hop hlen)
    · have e := stepWith_of_fetchDecode_ok c ha hd
      rcases exec_cases i s with hfault | heffect
      · obtain ⟨r, hr, he⟩ := execRaises_of_execFault hfault
        exact ⟨_, e.trans he, .faults r ha (.exec i r hd hr)⟩
      · obtain ⟨t, ht, he⟩ := completes_of_execEffect heffect
        exact ⟨t, e.trans he, .completes i t ha hd ht⟩

theorem stepsTo_of_stepWith {c : Config} {s t : State} (h : stepWith c s = .next t) : StepsTo c s t := by
  obtain ⟨u, hu, hsteps⟩ := stepWith_next c s
  obtain rfl : u = t := Host.Outcome.next.inj (hu.symm.trans h)
  exact hsteps

/-! What a completed instruction does to each element of the state -/

theorem Completes.fault_eq {s t : State} {i : Instr} (h : Completes s i t) : t.fault = s.fault := by
  cases h <;> rfl

theorem Completes.running_eq {s t : State} {i : Instr} (h : Completes s i t) :
    t.running = s.running ∨ i = .hlt ∧ t = s.halt := by
  cases h with
  | hlt => exact .inr ⟨rfl, rfl⟩
  | _ => exact .inl rfl

theorem Completes.flags_eq {s t : State} {i : Instr} (h : Completes s i t) :
    t.flags = s.flags ∨ (∃ ra rb, i = .cmp ra rb) ∧ ∃ a b, t.flags = compareFlags a b := by
  cases h with
  | cmp a b => exact .inr ⟨⟨_, _, rfl⟩, _, _, rfl⟩
  | _ => exact .inl rfl

theorem Completes.mem_eq {s t : State} {i : Instr} (h : Completes s i t) :
    t.mem = s.mem ∨ (i.opcode = 0x45 ∨ i.opcode = 0x50) ∧ ∃ v, t.mem = s.mem.write (s.sp - 1).toNat v := by
  cases h with
  | push a => exact .inr ⟨.inl rfl, _, pushByte_mem (fun s1 => s1.reg a) s⟩
  | call a v target => exact .inr ⟨.inr rfl, _, pushByte_mem v s⟩
  | _ => exact .inl rfl

theorem Completes.out_eq {s t : State} {i : Instr} (h : Completes s i t) :
    t.out = s.out ∨ ∃ ra, i = .prn ra := by
  cases h with
  | prn a => exact .inr ⟨_, rfl⟩
  | _ => exact .inl rfl

/-- The sequential pc of an instruction inside memory does not wrap. -/
theorem advance_pc_toNat {s : State} {n : Nat} (h : s.pc.toNat + n ≤ 256) :
    (s.advance (BitVec.ofNat 9 n)).pc.toNat = s.pc.toNat + n := by
  rw [advance_pc, BitVec.toNat_add, BitVec.toNat_ofNat]
  omega

theorem jump_pc_toNat_lt (s : State) (v : Byte) : (s.jump v).pc.toNat < 256 := by
  rw [jump_pc, zext9_toNat]
  exact v.isLt

/-- An instruction inside memory leaves pc inside memory, or goes on in sequence; the second is no case of HLT, RET,
CALL and JMP. -/
theorem Completes.pc_eq {s t : State} {i : Instr} (h : Completes s i t) (hfit : s.pc.toNat + i.length ≤ 256) :
    t.pc.toNat < 256 ∨ t.pc.toNat = s.pc.toNat + i.length ∧ i.opcode ∉ [0x01, 0x11, 0x50, 0x54] := by
  cases h with
  | register i a v hop hdest =>
    have hother : ∀ op ∈ registerWriters, op ∉ ([0x01, 0x11, 0x50, 0x54] : List Byte) := by decide
    exact .inr ⟨advance_pc_toNat (s := s.setReg a v) hfit, hother _ hop⟩
  | fallThrough i hop hlen =>
    have hother : ∀ op ∈ ([0x55, 0x56] : List Byte), op ∉ ([0x01, 0x11, 0x50, 0x54] : List Byte) := by decide
    exact .inr ⟨hlen ▸ advance_pc_toNat (n := 2) (hlen ▸ hfit), hother _ hop⟩
  | cmp a b => exact .inr ⟨advance_pc_toNat (s := s.setFlags _) hfit, by simp [Instr.opcode]⟩
  | prn a => exact .inr ⟨advance_pc_toNat (s := s.emit _) hfit, by simp [Instr.opcode]⟩
  | push a => exact .inr ⟨advance_pc_toNat (s := pushByte _ s) hfit, by simp [Instr.opcode]⟩
  | pop a => exact .inr ⟨advance_pc_toNat (s := (s.setReg a _).dropTop) hfit, by simp [Instr.opcode]⟩
  | hlt => exact .inl hfit
  | jump | call | ret => exact .inl (jump_pc_toNat_lt ..)

/-- A register that a completed instruction changes is its destination, or the stack pointer of a stack instruction. -/
theorem Completes.reg_ne {s t : State} {i : Instr} {q : Fin numRegs} (h : Completes s i t) (hq : t.reg q ≠ s.reg q) :
    (i.operandBytes.head? = some (regByte q) ∧
      i.opcode ∈ [0x82, 0x46, 0xA2, 0xA8, 0xAA, 0xAB, 0x69, 0xAC, 0xAD, 0xA4]) ∨
    (q = 7 ∧ i.opcode ∈ [0x45, 0x46, 0x50, 0x11]) := by
  cases h with
  | register i a v hop hdest =>
    have hlisted : registerWriters ⊆ [0x82, 0x46, 0xA2, 0xA8, 0xAA, 0xAB, 0x69, 0xAC, 0xAD, 0xA4] := by decide
    obtain rfl : q = a := by_contra fun hne => hq (setReg_reg_of_ne s v hne)
    exact .inl ⟨hdest, hlisted hop⟩
  | pop a =>
    by_cases h7 : q = spIndex
    · exact .inr ⟨h7, by simp [Instr.opcode]⟩
    · have hdrop : ((s.setReg a s.topOfStack).dropTop.advance 2).reg q = (s.setReg a s.topOfStack).reg q := by
        rw [advance_reg, dropTop_reg, if_neg h7]
      obtain rfl : q = a := by_contra fun hne => hq (hdrop.trans (setReg_reg_of_ne s _ hne))
      exact .inl ⟨rfl, by simp [Instr.opcode]⟩
  | push | call | ret =>
    have h7 : q = spIndex := by_contra fun hne => hq (setReg_reg_of_ne s _ hne)
    exact .inr ⟨h7, by simp [Instr.opcode]⟩
  | cmp | prn | hlt | jump | fallThrough => exact absurd rfl hq

/-! What a latched record says -/

theorem ExecRaises.pc_eq {s : State} {i : Instr} {r : FaultRecord} (h : ExecRaises s i r) : r.pc = s.pc := by
  cases h <;> rfl

theorem StepRaises.pc_eq {c : Config} {s : State} {r : FaultRecord} (h : StepRaises c s r) : r.pc = s.pc := by
  cases h with
  | exec i r hd hr => exact hr.pc_eq
  | _ => rfl

/-- The return address of a CALL inside memory is no cell only where it is 256. -/
theorem returnAddress_eq {s : State} {a : Fin numRegs} (hd : s.fetchDecode = .ok (.call (regByte a)))
    (hret : 256 ≤ s.pc.toNat + 2) : s.pc.toNat = 254 := by
  obtain ⟨-, hfit⟩ := bytes_of_fetchDecode_eq_ok hd
  have : (Instr.call (regByte a)).length = 2 := rfl
  omega

/-- Where pc is one the machine can hold, a record that a step latches is a possible one. -/
theorem StepRaises.wf {c : Config} {s : State} {r : FaultRecord} (h : StepRaises c s r) (hpc : s.pc.toNat ≤ 256) :
    r.wf = true := by
  cases h with
  | fetch hge =>
    have h256 : s.pc.toNat = 256 := by omega
    simp [FaultRecord.wf, memSize, h256]
  | unknownOpcode hlt hnone hpolicy => simp [FaultRecord.wf, hnone]
  | missingOperand i hlt hop hlen =>
    have hne : s.pc.toNat ≠ 256 := by omega
    simp [FaultRecord.wf, memSize, hne]
  | exec i r hd hr =>
    cases hr with
    | registerBounds _ b hmem hge =>
      have hrow : (opcodeTable.lookup i.opcode).isSome = true := Option.isSome_iff_ne_none.2 (lookup_opcode_ne_none i)
      simp [FaultRecord.wf, hrow, hge, b.isLt]
    | divisionByZero a b hzero => simp [FaultRecord.wf]
    | returnAddress a hret => simp [FaultRecord.wf, memSize, returnAddress_eq hd hret]

end Sys2Proof.Machine
end

section
/-! Proofs about every step: what it can write, when the machine stops, and the invariant (spec/10_state.md,
spec/40_dispatch_loop.md R80, spec/60_exceptions.md R150 to R158). -/

namespace Sys2Proof.Machine

/-! What a step can write -/

/-- Settles O14: faults keep pc, and a completed instruction leaves memory only in sequence. -/
theorem pcPassesTheLastCellOnlyInSequence : Obligations.PcPassesTheLastCellOnlyInSequence := by
  intro c s t hlt hstep hge
  cases stepsTo_of_stepWith hstep with
  | unchanged => exact absurd hge (Nat.not_le.2 hlt)
  | faults r ha hr => exact absurd hge (Nat.not_le.2 hlt)
  | completes i t ha hd h =>
    obtain ⟨-, hfit⟩ := bytes_of_fetchDecode_eq_ok hd
    obtain hin | ⟨hpc, hop⟩ := h.pc_eq hfit
    · exact absurd hge (Nat.not_le.2 hin)
    · exact ⟨by omega, i, hd, by omega, hop⟩

/-- Settles O22: of the instructions only PUSH and CALL store a byte. -/
theorem onlyPushAndCallWriteMemory : Obligations.OnlyPushAndCallWriteMemory := by
  intro c s t hstep a hread
  cases stepsTo_of_stepWith hstep with
  | unchanged => exact absurd rfl hread
  | faults r ha hr => exact absurd rfl hread
  | completes i t ha hd h =>
    obtain ⟨hop, -⟩ := bytes_of_fetchDecode_eq_ok hd
    obtain hmem | ⟨hi, v, hmem⟩ := h.mem_eq
    · exact absurd (congrArg (Memory.read · a) hmem) hread
    · refine ⟨hop ▸ hi, by_contra fun hne => hread ?_⟩
      rw [hmem, Memory.read_write_of_ne _ v hne]

/-- Settles O23: faults write no register, and a completed instruction only those of its own. -/
theorem registersChangeOnlyAsDestinationOrStackPointer :
    Obligations.RegistersChangeOnlyAsDestinationOrStackPointer := by
  intro c s t q hstep hq
  cases stepsTo_of_stepWith hstep with
  | unchanged => exact absurd rfl hq
  | faults r ha hr => exact absurd rfl hq
  | completes i t ha hd h => exact ⟨i, hd, h.reg_ne hq⟩

/-- A step keeps the flags, or runs a CMP. -/
theorem StepsTo.flags_eq {c : Config} {s t : State} (h : StepsTo c s t) :
    t.flags = s.flags ∨ s.mem.read s.pc.toNat = 0xA7 ∧ ∃ a b, t.flags = compareFlags a b := by
  cases h with
  | unchanged => exact .inl rfl
  | faults r ha hr => exact .inl rfl
  | completes i t ha hd h =>
    obtain ⟨hop, -⟩ := bytes_of_fetchDecode_eq_ok hd
    obtain heq | ⟨⟨_, _, rfl⟩, hval⟩ := h.flags_eq
    · exact .inl heq
    · exact .inr ⟨hop, hval⟩

/-- Settles O24: the flags of a step's state are the old ones or a CMP's. -/
theorem onlyCmpWritesFlags : Obligations.OnlyCmpWritesFlags := by
  intro c s t hstep hne
  obtain heq | ⟨hop, -⟩ := (stepsTo_of_stepWith hstep).flags_eq
  · exact absurd heq hne
  · exact hop

theorem atMostOne_of_exactlyOne {f : Flags} (h : f.exactlyOne = true) : f.atMostOne = true :=
  (Bool.and_eq_true_iff.1 h).1

/-- The packed byte of mutually exclusive flags, for each of the eight values (spec/10_state.md R16). -/
theorem packed_of_atMostOne : ∀ f : Flags, f.atMostOne = true →
    f.packed = if f.L then 0x04 else if f.G then 0x02 else if f.E then 0x01 else 0x00
  | ⟨l, g, e⟩ => by revert l g e; decide

/-- Settles O26: a step's flags are the old ones or those of a comparison, which sets exactly one. -/
theorem flagsStayMutuallyExclusive : Obligations.FlagsStayMutuallyExclusive := by
  refine ⟨rfl, ?_, fun s a b => ⟨_, exec_cmp_regByte s a b, compareFlags_exactlyOne ..⟩, packed_of_atMostOne⟩
  intro c s t hstep
  obtain heq | ⟨-, a, b, heq⟩ := (stepsTo_of_stepWith hstep).flags_eq
  · rw [heq]
    exact ⟨id, id⟩
  · have hone := compareFlags_exactlyOne a b
    rw [heq]
    exact ⟨fun _ => atMostOne_of_exactlyOne hone, fun _ => hone⟩

/-! How a run stops -/

/-- An active step either keeps `running` and the latch, or halts at HLT, or latches a fault and nothing else. -/
theorem StepsTo.control_cases {c : Config} {s t : State} (h : StepsTo c s t) :
    (t.running = s.running ∧ t.fault = s.fault) ∨
    (s.active = true ∧ s.fetchDecode = .ok .hlt ∧ t = s.halt) ∨
    (∃ r, StepRaises c s r ∧ FaultsWith r s t) := by
  cases h with
  | unchanged => exact .inl ⟨rfl, rfl⟩
  | faults r ha hr => exact .inr (.inr ⟨r, hr, rfl⟩)
  | completes i t ha hd h =>
    obtain hrun | ⟨rfl, rfl⟩ := h.running_eq
    · exact .inl ⟨hrun, h.fault_eq⟩
    · exact .inr (.inl ⟨ha, hd, rfl⟩)

/-- HLT decoded at pc is the byte 0x01 inside memory. -/
theorem bytes_of_fetchDecode_eq_hlt {s : State} (hd : s.fetchDecode = .ok .hlt) :
    s.pc.toNat < 256 ∧ s.mem.read s.pc.toNat = 0x01 := by
  obtain ⟨hop, hfit⟩ := bytes_of_fetchDecode_eq_ok hd
  exact ⟨hfit, hop⟩

/-- Settles O18: a step that ends the loop is a halt or a fault, since any other keeps `running` and the latch. -/
theorem runStopsOnlyByHltOrPreciseFault : Obligations.RunStopsOnlyByHltOrPreciseFault := by
  intro c s t hactive hstep hstopped
  obtain ⟨hrun, hfault⟩ := (active_iff s).1 hactive
  obtain ⟨hrun', hfault'⟩ | ⟨-, hd, rfl⟩ | ⟨r, hr, rfl⟩ := (stepsTo_of_stepWith hstep).control_cases
  · have hstill := active_of (hrun'.trans hrun) (hfault'.trans hfault)
    exact absurd hstopped (Bool.not_eq_false _ ▸ hstill)
  · obtain ⟨hpc, hop⟩ := bytes_of_fetchDecode_eq_hlt hd
    exact .inl ⟨hpc, hop, rfl, rfl, hfault⟩
  · exact .inr ⟨r, rfl, hr.pc_eq, hrun, fun hend => Option.some_ne_none r hend.2⟩

/-- Settles O27: a step that changes `running` is HLT's. -/
theorem onlyHltClearsRunning : Obligations.OnlyHltClearsRunning := by
  refine ⟨rfl, fun _ => rfl, fun s => ⟨s.halt, exec_hlt s, rfl⟩, ?_⟩
  intro c s t hstep hne
  obtain ⟨hrun, -⟩ | ⟨hactive, hd, rfl⟩ | ⟨r, -, rfl⟩ := (stepsTo_of_stepWith hstep).control_cases
  · exact absurd hrun hne
  · obtain ⟨hrun, hfault⟩ := (active_iff s).1 hactive
    exact ⟨hrun, hfault, (bytes_of_fetchDecode_eq_hlt hd).2⟩
  · exact absurd rfl hne

/-- Settles O16: case by case over the records that a step can latch; the invariant bounds pc by 256, so that a fetch
above memory is one at 256. -/
theorem faultRecordNamesItsCause : Obligations.FaultRecordNamesItsCause := by
  rintro c s t r ⟨-, hpc, -, -⟩ hnone hstep hlatched
  have hraised : StepRaises c s r := by
    obtain ⟨-, hfault⟩ | ⟨-, -, rfl⟩ | ⟨r', hr, rfl⟩ := (stepsTo_of_stepWith hstep).control_cases
    · rw [hfault, hnone] at hlatched
      cases hlatched
    · rw [halt_fault, hnone] at hlatched
      cases hlatched
    · exact Option.some.inj hlatched ▸ hr
  refine ⟨hraised.pc_eq, ?_⟩
  cases hraised with
  | fetch hge =>
    have h256 : s.pc.toNat = 256 := Nat.le_antisymm hpc hge
    exact ⟨h256, .inl ⟨h256, rfl⟩⟩
  | unknownOpcode hlt hunknown hpolicy => exact ⟨_, hlt, rfl, hunknown, hpolicy, rfl, rfl⟩
  | missingOperand i hlt hop hlen =>
    have := length_le_three i
    refine ⟨rfl, .inr ⟨i, rfl, hop, ?_⟩⟩
    omega
  | exec i r hd hr =>
    obtain ⟨hop, -⟩ := bytes_of_fetchDecode_eq_ok hd
    cases hr with
    | registerBounds _ b hmem hge => exact ⟨i, b, hd, hmem, hge, rfl, rfl⟩
    | divisionByZero a b hzero => exact ⟨a, b, hd, hzero, rfl, rfl⟩
    | returnAddress a hret =>
      have h254 := returnAddress_eq hd hret
      exact ⟨by simp [h254], .inr ⟨.call (regByte a), rfl, hop, .inr (.inr ⟨h254, rfl⟩)⟩⟩

/-! The invariant -/

theorem faultWf_of_fault_eq_none {s : State} (h : s.fault = none) : s.faultWf = true := by
  simp [State.faultWf, h]

/-- A fault latched by an active machine keeps the invariant. -/
theorem inv_of_stepRaises {c : Config} {s : State} {r : FaultRecord} (hs : s.Inv) (hrun : s.running = true)
    (hr : StepRaises c s r) : State.Inv { s with fault := some r } := by
  obtain ⟨hmem, hpc, hflags, -⟩ := hs
  exact ⟨hmem, hpc, hflags, by simp [State.faultWf, hr.wf hpc, hr.pc_eq, hrun]⟩

/-- A completed instruction of an unfaulted machine keeps the invariant. -/
theorem inv_of_completes {s t : State} {i : Instr} (hs : s.Inv) (hfault : s.fault = none)
    (hfit : s.pc.toNat + i.length ≤ 256) (h : Completes s i t) : t.Inv := by
  obtain ⟨hmem, -, hflags, -⟩ := hs
  refine ⟨?mem, ?pc, ?flags, faultWf_of_fault_eq_none (h.fault_eq.trans hfault)⟩
  case mem =>
    obtain heq | ⟨-, v, heq⟩ := h.mem_eq
    · exact heq ▸ hmem
    · exact heq ▸ Memory.write_wf v hmem (s.sp - 1).isLt
  case pc =>
    obtain hlt | ⟨heq, -⟩ := h.pc_eq hfit
    · exact Nat.le_of_lt hlt
    · exact heq ▸ hfit
  case flags =>
    obtain heq | ⟨-, a, b, heq⟩ := h.flags_eq
    · exact heq ▸ hflags
    · exact heq ▸ atMostOne_of_exactlyOne (compareFlags_exactlyOne a b)

theorem StepsTo.inv {c : Config} {s t : State} (h : StepsTo c s t) (hs : s.Inv) : t.Inv := by
  cases h with
  | unchanged => exact hs
  | faults r ha hr => exact inv_of_stepRaises hs ((active_iff s).1 ha).1 hr
  | completes i t ha hd h =>
    exact inv_of_completes hs ((active_iff s).1 ha).2 (bytes_of_fetchDecode_eq_ok hd).2 h

/-- Settles O20: each of the three kinds of step keeps the invariant, and a step is always one of them. -/
theorem stepKeepsTheInvariant : Obligations.StepKeepsTheInvariant := by
  refine ⟨fun s t hs hstep => (stepsTo_of_stepWith hstep).inv hs, fun c s hs => ?_⟩
  obtain ⟨t, hstep, hsteps⟩ := stepWith_next c s
  exact ⟨t, hstep, hsteps.inv hs⟩

end Sys2Proof.Machine
end

section
/-! Non-interference proofs: a change to an element that no operation reads is carried through a step untouched. The
elements are FL but for E, and the output (spec/10_state.md R15, R19). -/

namespace Sys2Proof.Machine

/-- A change to the next state of an answer. -/
def mapNext (φ : State → State) : StepResult → StepResult
  | .next t => .next (φ t)
  | .fault r => .fault r
  | .refused r => .refused r

@[simp] theorem mapNext_next (φ : State → State) (t : State) : mapNext φ (.next t) = .next (φ t) := rfl

/-- A change to the state that the operations over registers, memory, pc, `running` and the latch do not see, and that
does not see them. -/
structure Unseen (φ : State → State) : Prop where
  reg : ∀ s r, (φ s).reg r = s.reg r
  mem : ∀ s, (φ s).mem = s.mem
  pc : ∀ s, (φ s).pc = s.pc
  active : ∀ s, (φ s).active = s.active
  setReg : ∀ s r v, (φ s).setReg r v = φ (s.setReg r v)
  storeByte : ∀ s a v, (φ s).storeByte a v = φ (s.storeByte a v)
  setPc : ∀ s t, (φ s).setPc t = φ (s.setPc t)
  halt : ∀ s, (φ s).halt = φ s.halt
  latchFault : ∀ s r, (φ s).latchFault r = φ (s.latchFault r)

theorem unseen_id : Unseen id := by
  constructor <;> intros <;> rfl

theorem unseen_setFlags (f : Flags) : Unseen (·.setFlags f) := by
  constructor <;> intros <;> rfl

/-- The output stream replaced. -/
def State.setOut (o : List Byte) (s : State) : State := { s with out := o }

theorem unseen_setOut (o : List Byte) : Unseen (State.setOut o) := by
  constructor <;> intros <;> rfl

namespace Unseen

variable {φ : State → State} (hφ : Unseen φ)
include hφ

/-! The shared operations -/

theorem raise_eq (kind : FaultKind) (opcode : Option Byte) (info : Nat) (s : State) :
    raise kind opcode info (φ s) = mapNext φ (raise kind opcode info s) := by
  simp only [raise, hφ.pc, hφ.latchFault, mapNext_next]

theorem advance (s : State) (len : Pc) : (φ s).advance len = φ (s.advance len) := by
  simp only [State.advance, hφ.pc, hφ.setPc]

theorem jump (s : State) (v : Byte) : (φ s).jump v = φ (s.jump v) := hφ.setPc ..

theorem sp (s : State) : (φ s).sp = s.sp := hφ.reg ..

theorem topOfStack (s : State) : (φ s).topOfStack = s.topOfStack := by
  simp only [State.topOfStack, State.loadByte, hφ.mem, hφ.sp]

theorem dropTop (s : State) : (φ s).dropTop = φ s.dropTop := by
  simp only [State.dropTop, hφ.sp, hφ.setReg]

theorem pushByte {v : State → Byte} (hv : ∀ s, v (φ s) = v s) (s : State) :
    Machine.pushByte v (φ s) = φ (Machine.pushByte v s) := by
  simp only [Machine.pushByte, hφ.sp, hφ.setReg, hφ.storeByte, hv]

theorem withRegister {s : State} {body body' : Fin numRegs → StepResult} (h : ∀ a, body' a = mapNext φ (body a))
    (opcode ra : Byte) : withRegister opcode ra (φ s) body' = mapNext φ (withRegister opcode ra s body) := by
  rcases registerOperand_cases ra with ⟨a, -, rfl⟩ | ⟨-, hge⟩
  · rw [withRegister_regByte, withRegister_regByte, h]
  · rw [withRegister_of_ge hge, withRegister_of_ge hge, hφ.raise_eq]

theorem withRegisters {s : State} {body body' : Fin numRegs → Fin numRegs → StepResult}
    (h : ∀ a b, body' a b = mapNext φ (body a b)) (opcode ra rb : Byte) :
    withRegisters opcode ra rb (φ s) body' = mapNext φ (withRegisters opcode ra rb s body) :=
  hφ.withRegister (fun _ => hφ.withRegister (h _) ..) ..

theorem jumpIf (taken : Bool) (a : Fin numRegs) (s : State) :
    jumpIf taken a (φ s) = mapNext φ (jumpIf taken a s) := by
  cases taken
  · exact congrArg _ (hφ.advance ..)
  · simp only [Machine.jumpIf, if_true, hφ.reg, hφ.jump, mapNext_next]

theorem writeResult (s : State) (r : Fin numRegs) (o : Option Byte) :
    (φ s).writeResult r o = φ (s.writeResult r o) := by
  cases o with
  | none => rfl
  | some v => exact hφ.setReg ..

/-- The ALU sees the values of registers alone, and writes flags for CMP alone. -/
theorem aluStep {op : AluOp} (hcmp : op = .cmp → ∀ s f, (φ s).setFlags f = φ (s.setFlags f)) (opcode : Byte)
    (a b : Fin numRegs) (len : Pc) (s : State) :
    aluStep op opcode a b len (φ s) = mapNext φ (aluStep op opcode a b len s) := by
  have hflags : ∀ u : State, (φ u).writeFlags (alu op (s.reg a) (s.reg b)).flags =
      φ (u.writeFlags (alu op (s.reg a) (s.reg b)).flags) := by
    intro u
    rw [alu_flags]
    split
    case isTrue hop => exact hcmp hop ..
    case isFalse => rfl
  simp only [Machine.aluStep, hφ.reg]
  split
  · exact hφ.raise_eq ..
  · rw [hφ.writeResult, hflags, hφ.advance, mapNext_next]

/-- An instruction sees no more than E of the flags, writes flags only if it is CMP and output only if it is PRN. -/
theorem exec {i : Instr} {s : State} (hE : (φ s).equalFlag = s.equalFlag)
    (hcmp : (∃ ra rb, i = .cmp ra rb) → ∀ u f, (φ u).setFlags f = φ (u.setFlags f))
    (hprn : (∃ ra, i = .prn ra) → ∀ u v, (φ u).emit v = φ (u.emit v)) :
    exec i (φ s) = mapNext φ (exec i s) := by
  have binary : ∀ {op : AluOp} (opcode ra rb : Byte), (op = .cmp → ∃ ra rb, i = .cmp ra rb) →
      aluBinary op opcode ra rb (φ s) = mapNext φ (aluBinary op opcode ra rb s) :=
    fun _ _ _ hop => hφ.withRegisters (fun _ _ => hφ.aluStep (fun h => hcmp (hop h)) ..) ..
  cases i with
  | ldi ra imm =>
    refine hφ.withRegister (fun a => ?_) ..
    rw [hφ.setReg, hφ.advance, mapNext_next]
  | prn ra =>
    refine hφ.withRegister (fun a => ?_) ..
    rw [hφ.reg, hprn ⟨ra, rfl⟩, hφ.advance, mapNext_next]
  | hlt => exact congrArg _ (hφ.halt s)
  | push ra =>
    refine hφ.withRegister (fun a => ?_) ..
    rw [hφ.pushByte (fun u => hφ.reg u a), hφ.advance, mapNext_next]
  | pop ra =>
    refine hφ.withRegister (fun a => ?_) ..
    rw [hφ.topOfStack, hφ.setReg, hφ.dropTop, hφ.advance, mapNext_next]
  | ret =>
    show .next ((φ s).dropTop.jump (φ s).topOfStack) = mapNext φ (.next (s.dropTop.jump s.topOfStack))
    rw [hφ.topOfStack, hφ.dropTop, hφ.jump, mapNext_next]
  | call ra =>
    refine hφ.withRegister (fun a => ?_) ..
    have hret : returnAddress (φ s) = returnAddress s := congrArg (·.toNat + 2) (hφ.pc s)
    simp only [hret]
    split
    · exact hφ.raise_eq ..
    · rw [hφ.pushByte (fun _ => rfl), hφ.reg, hφ.jump, mapNext_next]
  | jmp ra =>
    refine hφ.withRegister (fun a => ?_) ..
    rw [hφ.reg, hφ.jump, mapNext_next]
  | jeq ra => exact hφ.withRegister (fun a => hE ▸ hφ.jumpIf ..) ..
  | jne ra => exact hφ.withRegister (fun a => hE ▸ hφ.jumpIf ..) ..
  | not ra => exact hφ.withRegister (fun a => hφ.aluStep (op := .not) nofun ..) ..
  | cmp ra rb => exact binary _ ra rb fun _ => ⟨ra, rb, rfl⟩
  | mul ra rb => exact binary _ ra rb nofun
  | mod ra rb => exact binary _ ra rb nofun
  | and ra rb => exact binary _ ra rb nofun
  | or ra rb => exact binary _ ra rb nofun
  | xor ra rb => exact binary _ ra rb nofun
  | shl ra rb => exact binary _ ra rb nofun
  | shr ra rb => exact binary _ ra rb nofun

/-! The step -/

theorem fetchDecode (s : State) : (φ s).fetchDecode = s.fetchDecode := by
  have hread : (φ s).memRead? = s.memRead? := by
    funext a
    simp only [State.memRead?, hφ.mem]
  simp only [State.fetchDecode, State.fetchWindow, hφ.pc, hread]

theorem noInstruction (c : Config) (e : DecodeError) (s : State) :
    noInstruction c e (φ s) = mapNext φ (noInstruction c e s) := by
  cases e with
  | noOpcode => simp only [Machine.noInstruction, hφ.pc, hφ.raise_eq]
  | missingOperand opcode which => simp only [Machine.noInstruction, hφ.pc, hφ.raise_eq]
  | unknownOpcode opcode =>
    cases hpolicy : c.unknownOpcodePolicy with
    | fault => simpa only [Machine.noInstruction, unknownOpcode, hpolicy] using hφ.raise_eq ..
    | stall => simp only [Machine.noInstruction, unknownOpcode, hpolicy, mapNext_next]

end Unseen

/-- A step executes an instruction, the same one from every state with an unseen change; or it executes none and
answers the state or a fault, with every unseen change carried through. -/
theorem stepWith_unseen_cases (c : Config) (s : State) :
    (∃ i, s.fetchDecode = .ok i ∧ ∀ φ, Unseen φ → stepWith c (φ s) = exec i (φ s)) ∨
    (∃ t, (t = s ∨ ∃ r, t = s.latchFault r) ∧ ∀ φ, Unseen φ → stepWith c (φ s) = .next (φ t)) := by
  rcases stepWith_cases c s with ⟨ha, -⟩ | ⟨ha, i, hd, -⟩ | ⟨ha, err, hd, -⟩
  · exact .inr ⟨s, .inl rfl, fun φ hφ => stepWith_of_not_active c ((hφ.active s).trans ha)⟩
  · exact .inl ⟨i, hd, fun φ hφ =>
      stepWith_of_fetchDecode_ok c ((hφ.active s).trans ha) ((hφ.fetchDecode s).trans hd)⟩
  · have carried : ∀ {t}, noInstruction c err s = .next t → ∀ φ, Unseen φ → stepWith c (φ s) = .next (φ t) := by
      intro t ht φ hφ
      rw [stepWith_of_fetchDecode_error c ((hφ.active s).trans ha) ((hφ.fetchDecode s).trans hd), hφ.noInstruction, ht,
        mapNext_next]
    rcases noInstruction_cases c err s with ⟨-, h⟩ | ⟨_, -, -, h⟩ | ⟨_, -, -, h⟩ | ⟨_, _, -, h⟩
    · exact .inr ⟨_, .inr ⟨_, rfl⟩, carried h⟩
    · exact .inr ⟨_, .inr ⟨_, rfl⟩, carried h⟩
    · exact .inr ⟨_, .inl rfl, carried h⟩
    · exact .inr ⟨_, .inr ⟨_, rfl⟩, carried h⟩

theorem exec_next_cases {i : Instr} {s t : State} (h : exec i s = .next t) :
    Completes s i t ∨ ∃ r, t = s.latchFault r := by
  rcases exec_cases i s with hfault | heffect
  · obtain ⟨r, -, he⟩ := execRaises_of_execFault hfault
    exact .inr ⟨r, Host.Outcome.next.inj (h.symm.trans he)⟩
  · obtain ⟨u, hu, he⟩ := completes_of_execEffect heffect
    exact .inl (Host.Outcome.next.inj (he.symm.trans h) ▸ hu)

/-! The flags -/

/-- CMP overwrites the flags whatever they were, or raises a fault that leaves them. -/
theorem exec_cmp_setFlags (ra rb : Byte) (f : Flags) (s : State) :
    exec (.cmp ra rb) (s.setFlags f) = exec (.cmp ra rb) s ∨
    ∃ r, exec (.cmp ra rb) s = .next (s.latchFault r) ∧
      exec (.cmp ra rb) (s.setFlags f) = .next ((s.latchFault r).setFlags f) := by
  rcases registerOperand_cases ra with ⟨a, -, rfl⟩ | ⟨-, hge⟩
  · rcases registerOperand_cases rb with ⟨b, -, rfl⟩ | ⟨-, hge⟩
    · exact .inl (by rw [exec_cmp_regByte, exec_cmp_regByte]; rfl)
    · have hraise : ∀ u, exec (.cmp (regByte a) rb) u = raise .registerBounds (some 0xA7) rb.toNat u :=
        fun u => (withRegister_regByte ..).trans (withRegister_of_ge hge ..)
      exact .inr ⟨_, hraise s, hraise _⟩
  · have hraise : ∀ u, exec (.cmp ra rb) u = raise .registerBounds (some 0xA7) ra.toNat u :=
      fun u => withRegister_of_ge hge ..
    exact .inr ⟨_, hraise s, hraise _⟩

/-- With other flags that agree on E, an instruction leads to the same state, or carries the other flags through where
it would have kept its own. -/
theorem exec_setFlags {i : Instr} {s t : State} {f : Flags} (hE : f.E = s.flags.E) (h : exec i s = .next t) :
    exec i (s.setFlags f) = .next t ∨ exec i (s.setFlags f) = .next (t.setFlags f) ∧ t.flags = s.flags := by
  by_cases hcmp : ∃ ra rb, i = .cmp ra rb
  · obtain ⟨ra, rb, rfl⟩ := hcmp
    obtain he | ⟨r, he, he'⟩ := exec_cmp_setFlags ra rb f s
    · exact .inl (he.trans h)
    · obtain rfl : s.latchFault r = t := Host.Outcome.next.inj (he.symm.trans h)
      exact .inr ⟨he', rfl⟩
  · have he : exec i (s.setFlags f) = mapNext (·.setFlags f) (exec i s) :=
      (unseen_setFlags f).exec hE (fun h => absurd h hcmp) (fun _ _ _ => rfl)
    refine .inr ⟨by rw [he, h]; rfl, ?_⟩
    obtain hdone | ⟨r, rfl⟩ := exec_next_cases h
    · exact hdone.flags_eq.resolve_right fun h => hcmp h.1
    · rfl

/-! The output -/

/-- A function of the state appends at most one byte to the output, none unless `prints`, and does everything else the
same whatever stands in the output before. -/
def AppendsOutput (f : State → StepResult) (prints : Prop) (s t : State) : Prop :=
  ∃ emitted : List Byte, t.out = s.out ++ emitted ∧ emitted.length ≤ 1 ∧ (emitted ≠ [] → prints) ∧
    ∀ o, f (s.setOut o) = .next (t.setOut (o ++ emitted))

theorem appendsOutput_of_out_eq {f : State → StepResult} {s t : State} (prints : Prop) (hout : t.out = s.out)
    (h : ∀ o, f (s.setOut o) = .next (t.setOut o)) : AppendsOutput f prints s t :=
  ⟨[], hout.trans (List.append_nil _).symm, Nat.zero_le 1, fun hne => absurd rfl hne,
    fun o => (List.append_nil o).symm ▸ h o⟩

theorem exec_prn_regByte (s : State) (a : Fin numRegs) :
    exec (.prn (regByte a)) s = .next ((s.emit (s.reg a)).advance 2) :=
  withRegister_regByte ..

/-- PRN appends its register's byte, or raises a fault. -/
theorem exec_prn_appendsOutput {ra : Byte} {s t : State} (h : exec (.prn ra) s = .next t) :
    AppendsOutput (exec (.prn ra)) ((Instr.prn ra).opcode = 0x47) s t := by
  rcases registerOperand_cases ra with ⟨a, -, rfl⟩ | ⟨-, hge⟩
  · obtain rfl := Host.Outcome.next.inj ((exec_prn_regByte s a).symm.trans h)
    exact ⟨[s.reg a], rfl, Nat.le_refl 1, fun _ => rfl, fun o => exec_prn_regByte (s.setOut o) a⟩
  · have hraise : ∀ u, exec (.prn ra) u = raise .registerBounds (some 0x47) ra.toNat u :=
      fun u => withRegister_of_ge hge ..
    obtain rfl := Host.Outcome.next.inj ((hraise s).symm.trans h)
    exact appendsOutput_of_out_eq _ rfl fun o => hraise (s.setOut o)

/-- Of the instructions only PRN appends to the output, and none reads it. -/
theorem exec_appendsOutput {i : Instr} {s t : State} (h : exec i s = .next t) :
    AppendsOutput (exec i) (i.opcode = 0x47) s t := by
  by_cases hprn : ∃ ra, i = .prn ra
  · obtain ⟨ra, rfl⟩ := hprn
    exact exec_prn_appendsOutput h
  · have hout : t.out = s.out := by
      obtain hdone | ⟨r, rfl⟩ := exec_next_cases h
      · exact hdone.out_eq.resolve_right hprn
      · rfl
    refine appendsOutput_of_out_eq _ hout fun o => ?_
    have he : exec i (s.setOut o) = mapNext (State.setOut o) (exec i s) :=
      (unseen_setOut o).exec rfl (fun _ _ _ => rfl) (fun h => absurd h hprn)
    rw [he, h, mapNext_next]

/-! The obligations -/

/-- Settles O25: of the flags an instruction sees E alone, and the phases before it see none. -/
theorem nothingReadsGreaterOrLess : Obligations.NothingReadsGreaterOrLess := by
  intro c s t f hE hstep
  have hφ := unseen_setFlags f
  obtain ⟨i, -, hexec⟩ | ⟨u, hu, hsame⟩ := stepWith_unseen_cases c s
  · obtain he | ⟨he, hkept⟩ := exec_setFlags hE ((hexec id unseen_id).symm.trans hstep)
    · exact ⟨t.flags, (hexec _ hφ).trans he, rfl, .inr rfl⟩
    · exact ⟨f, (hexec _ hφ).trans he, hE.trans (congrArg Flags.E hkept).symm, .inl ⟨rfl, hkept⟩⟩
  · obtain rfl : u = t := Host.Outcome.next.inj ((hsame id unseen_id).symm.trans hstep)
    have hkept : u.flags = s.flags := by
      obtain rfl | ⟨r, rfl⟩ := hu <;> rfl
    exact ⟨f, hsame _ hφ, hE.trans (congrArg Flags.E hkept).symm, .inl ⟨rfl, hkept⟩⟩

/-- Settles O28: PRN alone appends to the output, no instruction reads it, and the phases before it do neither. -/
theorem outputIsAppendOnlyAndNeverRead : Obligations.OutputIsAppendOnlyAndNeverRead := by
  intro c s t hstep
  obtain ⟨i, hd, hexec⟩ | ⟨u, hu, hsame⟩ := stepWith_unseen_cases c s
  · obtain ⟨hop, -⟩ := bytes_of_fetchDecode_eq_ok hd
    obtain ⟨emitted, hout, hlen, hprn, hany⟩ := exec_appendsOutput ((hexec id unseen_id).symm.trans hstep)
    exact ⟨emitted, hout, hlen, fun hne => hop.trans (hprn hne), fun o => (hexec _ (unseen_setOut o)).trans (hany o)⟩
  · obtain rfl : u = t := Host.Outcome.next.inj ((hsame id unseen_id).symm.trans hstep)
    have hout : u.out = s.out := by
      obtain rfl | ⟨r, rfl⟩ := hu <;> rfl
    exact appendsOutput_of_out_eq _ hout fun o => hsame _ (unseen_setOut o)

end Sys2Proof.Machine
end

section
/-! Reset and launch proofs: the canonical form of memory, the reset values, load and start, and a word placed for the
next fetch (spec/10_state.md R22, spec/20_memory.md R43, spec/70_reset_and_hazards.md R180 to R182). -/

namespace Sys2Proof.Machine

/-! Canonical memories -/

/-- A canonical memory from `lo` up lists nothing below `lo`. -/
theorem Memory.read_of_lt_of_wfFrom {lo a : Nat} {m : Memory} (h : Memory.wfFrom lo m = true) (ha : a < lo) :
    m.read a = unlistedByte := by
  induction m generalizing lo with
  | nil => rfl
  | cons cell rest ih =>
    obtain ⟨k, v⟩ := cell
    obtain ⟨hk, -, -, hrest⟩ := (Memory.wfFrom_cons ..).1 h
    rw [Memory.read_cons, if_neg (by omega)]
    exact ih hrest (by omega)

/-- The first entry of a canonical memory tells it from every canonical memory that starts above that entry. -/
theorem Memory.read_first_ne {lo k : Nat} {v : Byte} {m n : Memory} (hm : Memory.wfFrom lo ((k, v) :: m) = true)
    (hn : Memory.wfFrom (k + 1) n = true) : Memory.read ((k, v) :: m) k ≠ n.read k := by
  obtain ⟨-, -, hv, -⟩ := (Memory.wfFrom_cons ..).1 hm
  rw [Memory.read_cons, if_pos rfl, Memory.read_of_lt_of_wfFrom hn (Nat.lt_succ_self k)]
  exact hv

/-- The tails of memories whose first entries are at the same address read the same, if the memories do. -/
theorem Memory.tail_read_eq {k : Nat} {v w : Byte} {m n : Memory} (hm : Memory.wfFrom (k + 1) m = true)
    (hn : Memory.wfFrom (k + 1) n = true) {a : Nat}
    (h : Memory.read ((k, v) :: m) a = Memory.read ((k, w) :: n) a) : m.read a = n.read a := by
  rcases Nat.lt_or_ge k a with hlt | hge
  · simpa [Memory.read_cons, Nat.ne_of_lt hlt] using h
  · rw [Memory.read_of_lt_of_wfFrom hm (Nat.lt_succ_of_le hge), Memory.read_of_lt_of_wfFrom hn (Nat.lt_succ_of_le hge)]

/-- Canonical memories that read the same are the same, by induction along both: their first entries are at the same
address, since the lower one of two would read as unlisted in the other memory. -/
theorem Memory.eq_of_read_eq {lo : Nat} {m n : Memory} (hm : Memory.wfFrom lo m = true)
    (hn : Memory.wfFrom lo n = true) (hread : ∀ a, a < memSize → m.read a = n.read a) : m = n := by
  induction m generalizing lo n with
  | nil =>
    cases n with
    | nil => rfl
    | cons cell n =>
      obtain ⟨-, hk, -⟩ := (Memory.wfFrom_cons ..).1 hn
      exact absurd (hread _ hk).symm (Memory.read_first_ne hn rfl)
  | cons cell m ih =>
    obtain ⟨k, v⟩ := cell
    obtain ⟨-, hk, hv, hm'⟩ := (Memory.wfFrom_cons ..).1 hm
    cases n with
    | nil => exact absurd (hread k hk) (Memory.read_first_ne hm rfl)
    | cons cell n =>
      obtain ⟨l, w⟩ := cell
      obtain ⟨-, hl, hw, hn'⟩ := (Memory.wfFrom_cons ..).1 hn
      rcases Nat.lt_trichotomy k l with hlt | rfl | hgt
      · exact absurd (hread k hk) (Memory.read_first_ne hm ((Memory.wfFrom_cons ..).2 ⟨hlt, hl, hw, hn'⟩))
      · obtain rfl : v = w := by simpa [Memory.read_cons] using hread k hk
        rw [ih hm' hn' fun a ha => Memory.tail_read_eq hm' hn' (hread a ha)]
      · exact absurd (hread l hl).symm (Memory.read_first_ne hn ((Memory.wfFrom_cons ..).2 ⟨hgt, hk, hv, hm'⟩))

/-! Reset, load and start -/

theorem reset_reg (r : Fin numRegs) : State.reset.reg r = if r = 7 then 0xF4 else 0x00 := by
  revert r
  decide

theorem load_read (s : State) (image : Byte → Byte) (a : Byte) : (s.load image).mem.read a.toNat = image a := by
  have hin : a.toNat < memSize := a.isLt
  rw [load_mem, imageCells_read, if_pos hin, BitVec.ofNat_toNat, BitVec.setWidth_eq]

theorem launch_inv (image : Byte → Byte) : (State.launch image).Inv :=
  ⟨load_wf State.reset image, Nat.zero_le _, rfl, rfl⟩

/-! A word placed for the next fetch -/

theorem writeBytes_read_three (m : Memory) (a : Nat) (x y z : Byte) :
    (State.placeBytes.writeBytes m a [x, y, z]).read a = x ∧
    (State.placeBytes.writeBytes m a [x, y, z]).read (a + 1) = y ∧
    (State.placeBytes.writeBytes m a [x, y, z]).read (a + 2) = z := by
  simp [State.placeBytes.writeBytes, Memory.read_write, show a ≠ a + 1 + 1 by omega]

/-- The three bytes placed are those that the fetch phases then read. -/
theorem fetchWindow_placeBytes (s : State) (x y z : Byte) : (s.placeBytes [x, y, z]).fetchWindow = [x, y, z] := by
  have hfit : (s.placeBytes [x, y, z]).pc.toNat + 2 < 256 := by
    simp only [State.placeBytes]
    split
    case isTrue h => exact h
    case isFalse => decide
  obtain ⟨hx, hy, hz⟩ := writeBytes_read_three s.mem (s.placeBytes [x, y, z]).pc.toNat x y z
  rw [fetchWindow_whole hfit]
  exact congrArg₂ List.cons hx (congrArg₂ List.cons hy (congrArg₂ List.cons hz rfl))

/-- A word that decodes to an instruction is fetched as that instruction where it is placed. -/
theorem fetchDecode_withFetchWord {s : State} {nbits w : Nat} {i : Instr} (h : decodeTableWord nbits w = some i) :
    (s.withFetchWord nbits w).fetchDecode = .ok i := by
  have hwindow : (s.withFetchWord nbits w).fetchWindow = tableWordBytes nbits w := fetchWindow_placeBytes s ..
  unfold decodeTableWord at h
  split at h
  case h_1 j rest hd => exact fetchDecode_of_decode_ok (by rw [hwindow, hd, Option.some.inj h])
  case h_2 => cases h

/-! The obligations -/

/-- Settles O5: the placed machine is active and fetches the word. -/
theorem placedWordIsTheNextInstruction : Obligations.PlacedWordIsTheNextInstruction := fun _ _ _ _ h =>
  stepWith_of_fetchDecode_ok config rfl (fetchDecode_withFetchWord h)

/-- Settles O6: the reset state as it is written. -/
theorem resetGivesTheListedValues : Obligations.ResetGivesTheListedValues :=
  ⟨reset_reg, rfl, rfl, rfl, rfl, rfl, rfl, Memory.read_nil⟩

/-- Settles O7: launch is reset, load, start, and load makes each cell the image's byte. -/
theorem launchLoadsTheImageAndStarts : Obligations.LaunchLoadsTheImageAndStarts :=
  ⟨fun image s => ⟨load_read s image, rfl, rfl⟩,
    fun image => ⟨reset_reg, rfl, rfl, rfl, rfl, rfl, load_read State.reset image⟩⟩

/-- Settles O8: the image of a file is its bytes by index, and there is one where the file fits. -/
theorem imageBytesStartAtAddressZero : Obligations.ImageBytesStartAtAddressZero := by
  intro bytes
  refine ⟨fun hle => ⟨_, if_pos hle, fun a => ?_⟩, fun hgt => if_neg (Nat.not_le.2 hgt)⟩
  exact (load_read State.reset (fun b => bytes.getD b.toNat 0x00) a).trans (List.getD_eq_getElem?_getD ..)

/-- Settles O19: reset has no cell, a launch has the canonical cells of its image. -/
theorem resetAndLaunchMeetTheInvariant : Obligations.ResetAndLaunchMeetTheInvariant :=
  ⟨⟨rfl, Nat.zero_le _, rfl, rfl⟩, launch_inv⟩

/-- Settles O21: the case of memories that are canonical from address 0 up. -/
theorem canonicalMemoriesThatReadEqualAreEqual : Obligations.CanonicalMemoriesThatReadEqualAreEqual :=
  fun _ _ hm hn hread => Memory.eq_of_read_eq hm hn hread

end Sys2Proof.Machine
end

section
/-! ALU and operand proofs: the numerics of the ten operations (spec/41_alu.md R92 to R102), shifts and MOD, and the
register operand bytes that name no register (spec/60_exceptions.md R155). -/

namespace Sys2Proof.Machine

/-! Shifts as numbers -/

theorem shiftLeft_toNat (a n : Byte) : (shiftLeft a n).toNat = (a.toNat * 2 ^ n.toNat) % 256 := by
  rw [shiftLeft, BitVec.toNat_shiftLeft, Nat.shiftLeft_eq]

theorem shiftRight_toNat (a n : Byte) : (shiftRight a n).toNat = a.toNat / 2 ^ n.toNat := by
  rw [shiftRight, BitVec.toNat_ushiftRight, Nat.shiftRight_eq_div_pow]

/-- A count of 8 or more moves every bit out (the spec's decision D18). -/
theorem shiftLeft_of_ge {n : Byte} (h : 8 ≤ n.toNat) (a : Byte) : (shiftLeft a n).toNat = 0 := by
  rw [shiftLeft_toNat]
  exact Nat.mod_eq_zero_of_dvd (Dvd.dvd.mul_left (pow_dvd_pow 2 h) a.toNat)

theorem shiftRight_of_ge {n : Byte} (h : 8 ≤ n.toNat) (a : Byte) : (shiftRight a n).toNat = 0 := by
  rw [shiftRight_toNat]
  exact Nat.div_eq_of_lt (Nat.lt_of_lt_of_le a.isLt (Nat.pow_le_pow_right (by decide) h))

theorem alu_mod_of_ne_zero (a : Byte) {b : Byte} (h : b ≠ 0) : alu .mod a b = aluValue (a % b) := if_neg h

/-- SHL of two registers writes the whole-count shift to the first. -/
theorem shl_writesRegisterOnly (s : State) (a b : Fin numRegs) :
    WritesRegisterOnly (.shl (regByte a) (regByte b)) s a (shiftLeft (s.reg a) (s.reg b)).toNat 3 :=
  writesRegisterOnly_of_aluBinary (op := .shl) rfl rfl

/-- SHR of two registers writes the whole-count shift to the first. -/
theorem shr_writesRegisterOnly (s : State) (a b : Fin numRegs) :
    WritesRegisterOnly (.shr (regByte a) (regByte b)) s a (shiftRight (s.reg a) (s.reg b)).toNat 3 :=
  writesRegisterOnly_of_aluBinary (op := .shr) rfl rfl

/-! Register operand bytes out of range -/

/-- An instruction that checks its only register operand byte raises RegisterBounds where the byte is 8 or more. -/
theorem raisesRegisterBounds_of_withRegister {i : Instr} {s : State} {ra : Byte} {body : Fin numRegs → StepResult}
    (he : exec i s = withRegister i.opcode ra s body) (hge : 8 ≤ ra.toNat) : RaisesRegisterBounds i s ra :=
  ⟨_, he.trans (withRegister_of_ge hge ..), rfl⟩

/-- An instruction that checks two register operand bytes raises RegisterBounds for the first of them that is 8 or
more. -/
theorem raisesRegisterBounds_of_withRegisters {i : Instr} {s : State} {ra rb : Byte}
    {body : Fin numRegs → Fin numRegs → StepResult} (he : exec i s = withRegisters i.opcode ra rb s body) :
    (8 ≤ ra.toNat → RaisesRegisterBounds i s ra) ∧
    (ra.toNat < 8 → 8 ≤ rb.toNat → RaisesRegisterBounds i s rb) := by
  refine ⟨raisesRegisterBounds_of_withRegister he, fun hlt hge => ?_⟩
  rcases registerOperand_cases ra with ⟨a, -, rfl⟩ | ⟨-, hge'⟩
  · exact raisesRegisterBounds_of_withRegister (he.trans (withRegister_regByte ..)) hge
  · omega

/-! The obligations -/

/-- Settles O15: every register operand byte goes through the check of its format, before anything else. -/
theorem registerOperandOutOfRangeFaults : Obligations.RegisterOperandOutOfRangeFaults := by
  refine fun s ra rb imm => ⟨fun hge => ⟨?_, raisesRegisterBounds_of_withRegister rfl hge⟩, ?_⟩
  · intro mk hmk
    fin_cases hmk <;> exact raisesRegisterBounds_of_withRegister rfl hge
  · intro mk hmk
    fin_cases hmk <;> exact raisesRegisterBounds_of_withRegisters rfl

/-- Settles O29: the result of each operation as a number, and the flags and the zero divisor by `alu_flags` and
`alu_divzero`. -/
theorem aluComputesTheTableOfNumerics : Obligations.AluComputesTheTableOfNumerics := by
  intro a b
  have hcmp : (alu .cmp a b).flags = some (compareFlags a b) := rfl
  refine ⟨congrArg some (BitVec.toNat_add a b), congrArg some (BitVec.toNat_mul a b), rfl, rfl, rfl,
    congrArg some BitVec.toNat_not, congrArg some (shiftLeft_toNat a b), congrArg some (shiftRight_toNat a b), ?mod,
    ⟨_, hcmp, compareFlags_L_iff a b, compareFlags_G_iff a b, compareFlags_E_iff a b⟩, ⟨rfl, rfl⟩,
    fun op => alu_divzero op a b, fun op => ?flags⟩
  case mod =>
    intro hb
    rw [alu_mod_of_ne_zero a hb]
    exact congrArg some BitVec.toNat_umod
  case flags =>
    rw [alu_flags]
    split <;> simp [*]

/-- Settles O34: both shifts are the whole-count shift of the ALU, which is 0 from count 8 on. -/
theorem shiftsUseTheWholeCount : Obligations.ShiftsUseTheWholeCount := by
  intro s ra rb
  have hshl := shl_writesRegisterOnly s ra rb
  have hshr := shr_writesRegisterOnly s ra rb
  exact ⟨⟨rfl, shiftLeft_toNat .. ▸ hshl⟩, ⟨rfl, shiftRight_toNat .. ▸ hshr⟩,
    fun hge => ⟨shiftLeft_of_ge hge _ ▸ hshl, shiftRight_of_ge hge _ ▸ hshr⟩⟩

/-- Settles O35: the ALU gives the remainder, or reports a zero divisor before anything is written. -/
theorem modWritesTheRemainderOrFaults : Obligations.ModWritesTheRemainderOrFaults := by
  intro s ra rb
  refine ⟨rfl, fun hb => ?_, fun hb => ?_⟩
  · have hremainder : (s.reg ra % s.reg rb).toNat = (s.reg ra).toNat % (s.reg rb).toNat := BitVec.toNat_umod
    exact hremainder ▸ writesRegisterOnly_of_aluBinary (op := .mod) rfl (alu_mod_of_ne_zero _ hb)
  · have he : exec (.mod (regByte ra) (regByte rb)) s = aluStep .mod 0xA4 ra rb 3 s := aluBinary_regByte ..
    have hdivzero := (alu_divzero .mod (s.reg ra) (s.reg rb)).2 ⟨rfl, hb⟩
    exact ⟨_, he.trans (if_pos hdivzero), rfl⟩

end Sys2Proof.Machine
end

section
/-! Stack, output and status proofs: PRN, PUSH, POP, CALL and RET on every register, register 7 included, and what the
host reads (spec/42_load_output_halt.md R111, spec/43_stack.md R120 to R122, spec/44_control_transfer.md R134, R135,
spec/60_exceptions.md R162). -/

namespace Sys2Proof.Machine

/-! The stack pointer -/

theorem pushByte_sp (v : State → Byte) (s : State) : (pushByte v s).sp = s.sp - 1 := by
  rw [sp_eq, pushByte_reg, if_pos rfl]

theorem dropTop_sp (s : State) : s.dropTop.sp = s.sp + 1 := by
  rw [sp_eq, dropTop_reg, if_pos rfl]

theorem byte_sub_one_toNat (b : Byte) : (b - 1).toNat = (b.toNat + 255) % 256 := by
  rw [BitVec.toNat_sub]
  exact congrArg (· % 256) (Nat.add_comm ..)

theorem byte_add_one_toNat (b : Byte) : (b + 1).toNat = (b.toNat + 1) % 256 := BitVec.toNat_add ..

/-! A push and a pop -/

/-- The pushed byte stands at the new top of the stack. -/
theorem pushByte_topOfStack (v : State → Byte) (s : State) :
    (pushByte v s).topOfStack = v (s.setReg spIndex (s.sp - 1)) := by
  rw [State.topOfStack, State.loadByte, pushByte_sp, pushByte_mem, Memory.read_write_self]

theorem pushByte_sameMemoryExcept (v : State → Byte) (s : State) :
    SameMemoryExcept (s.sp - 1) s (pushByte v s) := by
  intro a ha
  rw [pushByte_mem, Memory.read_write_of_ne _ _ ha]

theorem pushByte_sameRegsExcept (v : State → Byte) (s : State) : SameRegsExcept [7] s (pushByte v s) := by
  intro q hq
  rw [pushByte_reg, if_neg (List.ne_of_not_mem_cons hq)]

theorem dropTop_sameRegsExcept (s : State) : SameRegsExcept [7] s s.dropTop := by
  intro q hq
  rw [dropTop_reg, if_neg (List.ne_of_not_mem_cons hq)]

/-- Dropping the top of the stack after a push undoes the push on every register. -/
theorem pushByte_dropTop_reg (v : State → Byte) (s : State) (q : Fin numRegs) :
    (pushByte v s).dropTop.reg q = s.reg q := by
  rw [dropTop_reg, pushByte_sp, pushByte_reg]
  by_cases hq : q = spIndex
  · rw [if_pos hq, hq, BitVec.sub_add_cancel, sp_eq]
  · rw [if_neg hq, if_neg hq]

theorem setReg_reg_eq_self (s : State) (r : Fin numRegs) : s.setReg r (s.reg r) = s := by
  simp [State.setReg, State.reg]

/-- A register pushed as it is after the decrement stands on top of the stack as it is then, register 7 too. -/
theorem pushByte_reg_topOfStack (s : State) (a : Fin numRegs) :
    (pushByte (fun s1 => s1.reg a) s).topOfStack = (pushByte (fun s1 => s1.reg a) s).reg a := by
  rw [pushByte_topOfStack]
  rfl

/-! The meanings on an operand byte that names a register -/

theorem exec_push_regByte (s : State) (a : Fin numRegs) :
    exec (.push (regByte a)) s = .next ((pushByte (fun s1 => s1.reg a) s).advance 2) :=
  withRegister_regByte ..

theorem exec_pop_regByte (s : State) (a : Fin numRegs) :
    exec (.pop (regByte a)) s = .next ((s.setReg a s.topOfStack).dropTop.advance 2) :=
  withRegister_regByte ..

theorem exec_ret (s : State) : exec .ret s = .next (s.dropTop.jump s.topOfStack) := rfl

/-- What a CALL at `s` pushes: the address after it (spec/44_control_transfer.md R134). -/
def pushReturn (s : State) : State := pushByte (fun _ => BitVec.ofNat 8 (s.pc.toNat + 2)) s

theorem exec_call_of_lt {s : State} (h : s.pc.toNat + 2 < 256) (a : Fin numRegs) :
    exec (.call (regByte a)) s = .next ((pushReturn s).jump ((pushReturn s).reg a)) :=
  (withRegister_regByte ..).trans (if_neg (Nat.not_le.2 h))

theorem exec_call_of_ge {s : State} (h : 256 ≤ s.pc.toNat + 2) (a : Fin numRegs) :
    exec (.call (regByte a)) s = raise .memoryBounds (some 0x50) (s.pc.toNat + 2) s :=
  (withRegister_regByte ..).trans (if_pos h)

theorem pushReturn_topOfStack_toNat {s : State} (h : s.pc.toNat + 2 < 256) :
    (pushReturn s).topOfStack.toNat = s.pc.toNat + 2 := by
  rw [pushReturn, pushByte_topOfStack]
  exact (BitVec.toNat_ofNat ..).trans (Nat.mod_eq_of_lt h)

theorem pushReturn_sameMemoryExcept (s : State) : SameMemoryExcept (s.sp - 1) s (pushReturn s) :=
  pushByte_sameMemoryExcept _ s

theorem pushReturn_sameRegsExcept (s : State) : SameRegsExcept [7] s (pushReturn s) :=
  pushByte_sameRegsExcept _ s

theorem pushReturn_dropTop_reg (s : State) (q : Fin numRegs) : (pushReturn s).dropTop.reg q = s.reg q :=
  pushByte_dropTop_reg ..

/-- A register after the stack pointer is set to `sp`. -/
theorem setSp_reg (s : State) (sp : Byte) (a : Fin numRegs) :
    (s.setReg spIndex sp).reg a = if a = 7 then sp else s.reg a := setReg_reg ..

/-! The obligations -/

/-- Settles O17: the status is told from the latch first, then from `running`. -/
theorem faultsAreDistinguishable : Obligations.FaultsAreDistinguishable := by
  refine ⟨⟨rfl, rfl, rfl, rfl⟩, fun s => ?_⟩
  cases hfault : s.fault with
  | some r => simp [State.status, State.active, hfault]
  | none => cases hrun : s.running <;> simp [State.status, State.active, State.NormalEnd, hfault, hrun]

/-- Settles O37: PRN is an append and a sequential pc. -/
theorem prnAppendsItsRegister : Obligations.PrnAppendsItsRegister := fun s ra =>
  ⟨rfl, _, exec_prn_regByte s ra, rfl, List.map_append, rfl, fun _ _ => rfl, rfl, ⟨fun _ => rfl, rfl⟩, rfl, rfl⟩

/-- Settles O39: PRN appends what LDI wrote. -/
theorem ldiThenPrnEmitsTheImmediate : Obligations.LdiThenPrnEmitsTheImmediate := by
  intro s ra imm
  have hreg : ((s.setReg ra imm).advance 3).reg ra = imm := setReg_reg_self ..
  refine ⟨_, _, exec_ldi_regByte s ra imm, exec_prn_regByte _ ra, ?out, hreg, ?pc⟩
  case out => rw [hreg]; rfl
  case pc => exact BitVec.add_assoc s.pc 3 2

/-- Settles O40: PUSH is a push of the register as it is after the decrement. -/
theorem pushStoresBelowTheStackPointer : Obligations.PushStoresBelowTheStackPointer := by
  intro s ra
  have hsp := pushByte_sp (fun s1 => s1.reg ra) s
  refine ⟨rfl, _, exec_push_regByte s ra, hsp, (congrArg _ hsp).trans (byte_sub_one_toNat s.sp), ?stored,
    pushByte_sameMemoryExcept (fun s1 => s1.reg ra) s, rfl, pushByte_sameRegsExcept (fun s1 => s1.reg ra) s, rfl, rfl,
    rfl, rfl⟩
  rw [advance_mem, pushByte_mem, Memory.read_write_self, setSp_reg]

/-- Settles O41: POP loads its register first, and increments the stack pointer that is there then. -/
theorem popLoadsTheTopOfTheStack : Obligations.PopLoadsTheTopOfTheStack := by
  intro s ra
  have hsp : (s.setReg ra s.topOfStack).dropTop.sp = (s.setReg ra s.topOfStack).sp + 1 := dropTop_sp _
  refine ⟨rfl, _, exec_pop_regByte s ra, ?other, ?seven, rfl, ?regs, rfl, rfl, ⟨fun _ => rfl, rfl⟩, rfl, rfl⟩
  case other =>
    intro hne
    have hkept : (s.setReg ra s.topOfStack).sp = s.sp := setReg_reg_of_ne s _ (Ne.symm hne)
    refine ⟨?_, (congrArg _ (hsp.trans (congrArg (· + 1) hkept))).trans (byte_add_one_toNat s.sp)⟩
    rw [advance_reg, dropTop_reg, if_neg hne, setReg_reg_self]
    rfl
  case seven =>
    rintro rfl
    exact (congrArg _ (hsp.trans (congrArg (· + 1) (setReg_sp_self ..)))).trans (byte_add_one_toNat s.topOfStack)
  case regs =>
    intro q hq
    obtain ⟨hra, h7⟩ : q ≠ ra ∧ q ≠ 7 := by simpa using hq
    rw [advance_reg, dropTop_reg, if_neg h7, setReg_reg_of_ne s _ hra]

/-- Settles O42: the byte popped is the one the register holds, so that all the pop does to the registers is to undo the
push. -/
theorem pushThenPopRestoresRegisters : Obligations.PushThenPopRestoresRegisters := by
  intro s ra
  have hpop : exec (.pop (regByte ra)) ((pushByte (fun s1 => s1.reg ra) s).advance 2) =
      .next (((pushByte (fun s1 => s1.reg ra) s).advance 2).dropTop.advance 2) := by
    have htop : ((pushByte (fun s1 => s1.reg ra) s).advance 2).topOfStack =
        ((pushByte (fun s1 => s1.reg ra) s).advance 2).reg ra := pushByte_reg_topOfStack s ra
    rw [exec_pop_regByte, htop, setReg_reg_eq_self]
  exact ⟨_, _, exec_push_regByte s ra, hpop, pushByte_dropTop_reg (fun s1 => s1.reg ra) s,
    BitVec.add_assoc s.pc 2 2, rfl, rfl, ⟨rfl, rfl⟩,
    pushByte_sameMemoryExcept (fun s1 => s1.reg ra) s⟩

/-- Settles O45: CALL is a push of the return address and a jump, or the fault. -/
theorem callPushesTheReturnAddress : Obligations.CallPushesTheReturnAddress := by
  intro s ra
  refine ⟨rfl, fun hlt => ?_, fun hge => ⟨_, exec_call_of_ge hge ra, rfl⟩⟩
  have hsp : (pushReturn s).sp = s.sp - 1 := pushByte_sp ..
  refine ⟨_, exec_call_of_lt hlt ra, hsp, (congrArg _ hsp).trans (byte_sub_one_toNat s.sp), ?stored,
    pushReturn_sameMemoryExcept s, ?target, pushReturn_sameRegsExcept s, rfl, rfl, rfl, rfl⟩
  case stored => exact hsp ▸ pushReturn_topOfStack_toNat hlt
  case target =>
    rw [jump_pc, zext9_toNat]
    exact congrArg _ (pushByte_reg ..)

/-- Settles O46: RET is a pop whose byte goes to pc. -/
theorem retPopsThePc : Obligations.RetPopsThePc := fun s =>
  ⟨rfl, _, exec_ret s, zext9_toNat _, (congrArg _ (dropTop_sp s)).trans (byte_add_one_toNat s.sp),
    dropTop_sameRegsExcept s, rfl, rfl, ⟨fun _ => rfl, rfl⟩, rfl, rfl⟩

/-- Settles O47: RET pops the byte that CALL pushed, and undoes the push on every register. -/
theorem callThenRetReturns : Obligations.CallThenRetReturns := by
  intro s ra hlt
  exact ⟨_, _, exec_call_of_lt hlt ra, exec_ret _, (zext9_toNat _).trans (pushReturn_topOfStack_toNat hlt),
    pushReturn_dropTop_reg s, rfl, rfl, ⟨rfl, rfl⟩, pushReturn_sameMemoryExcept s⟩

end Sys2Proof.Machine
end
